-- ==== Sys2Proof/Word.lean ====
section
/-! DEFINITION. The two value widths of the block's data paths (00_scope.md R9, R11) and how a
16-bit value splits into its bytes. -/

namespace Sys2Proof

/-- An 8-bit value: the memory data unit and the ALU width (00_scope.md R7). -/
abbrev Byte := BitVec 8

/-- A 16-bit value: an address, a register pair, SP or PC (00_scope.md R7). -/
abbrev Word := BitVec 16

/-- `v[15:8]` (R9). -/
def hiByte (v : Word) : Byte := v.extractLsb' 8 8

/-- `v[7:0]` (R9). -/
def loByte (v : Word) : Byte := v.extractLsb' 0 8

/-- `{hi, lo}` (R9). -/
def ofHiLo (hi lo : Byte) : Word := hi ++ lo

/-- `zext_16(v)` (R9). -/
def zextByte (v : Byte) : Word := v.setWidth 16

end Sys2Proof
end

