-- ==== Sys2Proof/Config.lean ====
section
/-! DEFINITION. What the block takes as parameters (00_scope.md R7): their values for this
hardware, and the OPEN one as a constant without a body. -/

namespace Sys2Proof

/-- The option `FLAG_PROFILE` (00_scope.md R3). -/
inductive FlagProfile where
  /-- carry, zero and sign -/
  | generic
  /-- carry, zero and sign, and parity and auxiliary carry -/
  | i8080
  deriving DecidableEq, Repr

/-- The two values of the OPEN parameter `AC_SUB_RULE` (40_alu_flags.md R94). -/
inductive AcSubRule where
  /-- AC is the carry out of bit 3 of `a + ~b + 1` -/
  | noHalfBorrow
  /-- AC is the borrow into bit 3 -/
  | halfBorrow
  deriving DecidableEq, Repr, Inhabited

/-- The default of `FLAG_PROFILE` (R7); the running machine's profile is `State.profile`
(log entry 3). -/
def Config.flagProfile : FlagProfile := .generic

/-- `AC_SUB_RULE` is OPEN (R7, R94, D4): no body, so nothing can be proved of its value
(log entry 4). -/
opaque Config.acSubRule : AcSubRule

/-- `RESET_PC`, default 0x0000 (R7, 70_reset_and_hazards.md R154). -/
def Config.resetPc : Word := 0x0000#16

/-- `MAX_INSN_LEN` (R7, 30_encoding.md R81). -/
def Config.maxInsnLen : Nat := 16

/-- `MEM_SIZE` (R7, 20_memory.md R45). -/
def Config.memSize : Nat := 65536

/-- What a memory byte reads as that neither the loader nor a store has written. The spec calls it
a draw (10_state.md R44, D22). DESIGN CHOICE, unsafe: log entry 2. -/
def Config.unwrittenByte : Byte := 0x00#8

end Sys2Proof
end

