-- ==== Sys2Proof/Syntax.lean ====
section
/-! DEFINITION. The instruction terms of 30_encoding.md R64: one constructor of `Instr` for each
row of spec/opcode_table.json. The constructors admit every combination of fields; WellFormed.lean
says which are well-formed. -/

namespace Sys2Proof

/-- The ALU control codes that have a meaning (30_encoding.md R64, R71). -/
inductive Ctl where
  | add
  | sub
  deriving DecidableEq, Repr

/-- The twelve register codes (10_state.md R24). -/
inductive Reg where
  | b | c | d | e | h | l | a
  | bc | de | hl | sp | pc
  deriving DecidableEq, Repr

/-- The flags (10_state.md R32); `p` and `ac` exist only under `I8080`. -/
inductive Flag where
  | c | z | s | p | ac
  deriving DecidableEq, Repr

/-- The operand forms (41_operand_resolver.md R105-R109). -/
inductive Operand where
  | imm8 (n : Byte)
  | imm16 (n : Word)
  | reg (r : Reg)
  | dir (addr : Word)
  | ind (r : Reg)
  deriving DecidableEq, Repr

/-- The predicates of `COND` (47_guard_nop_halt.md R133). -/
inductive Pred where
  /-- `FSET(g)`: the flag is 1 -/
  | fset (g : Flag)
  /-- `FCLR(g)`: the flag is 0 -/
  | fclr (g : Flag)
  /-- the `k`-th member of the optional parameter `PRED` (R133, D20): it has no encoding, and its
  value is the constant `Config.extPred`, which has no body (log entry 5) -/
  | ext (k : Nat)
  deriving DecidableEq, Repr

/-- The instructions (30_encoding.md R64). `ARITH` is two rows of the opcode table, one for each
control code. -/
inductive Instr where
  /-- `NOP` (R134) -/
  | nop
  /-- `LOAD(dst, src)` (R125) -/
  | load (dst : Reg) (src : Operand)
  /-- `STORE(dst, src)` (R126) -/
  | store (dst src : Operand)
  /-- `ARITH(ADD, mask, dst, rhs)` (R127) -/
  | arithAdd (mask : Byte) (dst : Reg) (rhs : Operand)
  /-- `ARITH(SUB, mask, dst, rhs)` (R128) -/
  | arithSub (mask : Byte) (dst : Reg) (rhs : Operand)
  /-- `JUMP(target)` (R129) -/
  | jump (target : Word)
  /-- `JUMP_ON(target, flag)` (R130) -/
  | jumpOn (target : Word) (flag : Flag)
  /-- `PUSH(src)` (R131) -/
  | push (src : Operand)
  /-- `POP(dst)` (R132) -/
  | pop (dst : Reg)
  /-- `COND(pred, inner)` (R133) -/
  | cond (pred : Pred) (inner : Instr)
  /-- `HALT` (R135) -/
  | halt
  deriving DecidableEq, Repr

end Sys2Proof
end

