-- ==== Sys2Proof/WellFormed.lean ====
section
/-! DEFINITION. The named well-formedness checks of 30_encoding.md R84, with the widths they
compare (10_state.md R24, 30_encoding.md R76) and the profile's flags (10_state.md R33). -/

namespace Sys2Proof

/-- The width of a value (00_scope.md R11). -/
inductive Width where
  | w8
  | w16
  deriving DecidableEq, Repr

/-- The width column of 10_state.md R24. -/
def Reg.width : Reg → Width
  | .b | .c | .d | .e | .h | .l | .a => .w8
  | .bc | .de | .hl | .sp | .pc => .w16

/-- The width of an operand's value (30_encoding.md R76). -/
def Operand.width : Operand → Width
  | .imm8 _ => .w8
  | .imm16 _ => .w16
  | .reg r => r.width
  | .dir _ => .w8
  | .ind _ => .w8

/-- `FMASK` (10_state.md R33). -/
def FlagProfile.fmask : FlagProfile → Byte
  | .generic => 0xC1#8
  | .i8080 => 0xD5#8

/-- Is the flag one of the profile's (10_state.md R32)? -/
def Flag.inProfile (p : FlagProfile) : Flag → Bool
  | .c | .z | .s => true
  | .p | .ac => p == .i8080

/-- An operand that `STORE` takes as its destination: `IMM16(a)`, or `REG(r)` with a 16-bit code
(R84 `WF-STORE-DST`). -/
def Operand.addressTyped : Operand → Bool
  | .imm16 _ => true
  | .reg r => r.width == .w16
  | .imm8 _ | .dir _ | .ind _ => false

/-- The names of R84's checks. -/
inductive WfCheck where
  /-- `WF-REG`: holds of every term here, since `Reg` has only the twelve codes -/
  | reg
  | load
  | storeDst
  | storeSrc
  /-- `WF-ARITH-CTL`: holds of every term here, since `ARITH` has a constructor for each code -/
  | arithCtl
  | arithDst
  | arithRhs
  | mask
  | flag
  | push
  | pop
  | ind
  | cond
  deriving DecidableEq, Repr

/-- `WF-LOAD`. -/
def wfLoad (dst : Reg) (src : Operand) : Bool := src.width == dst.width

/-- `WF-STORE-DST`. -/
def wfStoreDst (dst : Operand) : Bool := dst.addressTyped

/-- `WF-STORE-SRC`. -/
def wfStoreSrc (src : Operand) : Bool := src.width == .w8

/-- `WF-ARITH-DST`. -/
def wfArithDst (dst : Reg) : Bool := dst.width == .w8

/-- `WF-ARITH-RHS`. -/
def wfArithRhs (rhs : Operand) : Bool := rhs.width == .w8

/-- `WF-MASK`: the mask is a subset of `FMASK`. -/
def wfMask (p : FlagProfile) (mask : Byte) : Bool := (mask &&& ~~~p.fmask) == 0x00#8

/-- `WF-FLAG` of a `JUMP_ON`. -/
def wfFlag (p : FlagProfile) (g : Flag) : Bool := g.inProfile p

/-- `WF-FLAG` of a predicate; a member of `PRED` names no flag. -/
def wfPred (p : FlagProfile) : Pred → Bool
  | .fset g => wfFlag p g
  | .fclr g => wfFlag p g
  | .ext _ => true

/-- `WF-PUSH`. -/
def wfPush (src : Operand) : Bool := src.width == .w8

/-- `WF-POP`. -/
def wfPop (dst : Reg) : Bool := dst.width == .w8

/-- `WF-IND` of one operand. -/
def wfInd : Operand → Bool
  | .ind r => r.width == .w16
  | .imm8 _ | .imm16 _ | .reg _ | .dir _ => true

/-- `WF(i)` (R84): the conjunction of the checks that apply to the term. -/
def Instr.wf (p : FlagProfile) : Instr → Bool
  | .nop => true
  | .load dst src => wfLoad dst src && wfInd src
  | .store dst src => wfStoreDst dst && wfStoreSrc src && wfInd dst && wfInd src
  | .arithAdd mask dst rhs => wfArithDst dst && wfArithRhs rhs && wfMask p mask && wfInd rhs
  | .arithSub mask dst rhs => wfArithDst dst && wfArithRhs rhs && wfMask p mask && wfInd rhs
  | .jump _ => true
  | .jumpOn _ g => wfFlag p g
  | .push src => wfPush src && wfInd src
  | .pop dst => wfPop dst
  | .cond q inner => wfPred p q && inner.wf p
  | .halt => true

/-- The check's name where it fails, for the list below. -/
def WfCheck.unless (name : WfCheck) (ok : Bool) : List WfCheck := if ok then [] else [name]

/-- The names of the checks that a term fails. -/
def Instr.failedChecks (p : FlagProfile) : Instr → List WfCheck
  | .nop => []
  | .load dst src => WfCheck.load.unless (wfLoad dst src) ++ WfCheck.ind.unless (wfInd src)
  | .store dst src =>
    WfCheck.storeDst.unless (wfStoreDst dst) ++ WfCheck.storeSrc.unless (wfStoreSrc src) ++
      WfCheck.ind.unless (wfInd dst && wfInd src)
  | .arithAdd mask dst rhs =>
    WfCheck.arithDst.unless (wfArithDst dst) ++ WfCheck.arithRhs.unless (wfArithRhs rhs) ++
      WfCheck.mask.unless (wfMask p mask) ++ WfCheck.ind.unless (wfInd rhs)
  | .arithSub mask dst rhs =>
    WfCheck.arithDst.unless (wfArithDst dst) ++ WfCheck.arithRhs.unless (wfArithRhs rhs) ++
      WfCheck.mask.unless (wfMask p mask) ++ WfCheck.ind.unless (wfInd rhs)
  | .jump _ => []
  | .jumpOn _ g => WfCheck.flag.unless (wfFlag p g)
  | .push src => WfCheck.push.unless (wfPush src) ++ WfCheck.ind.unless (wfInd src)
  | .pop dst => WfCheck.pop.unless (wfPop dst)
  | .cond q inner => WfCheck.flag.unless (wfPred p q) ++ WfCheck.cond.unless (inner.wf p)
  | .halt => []

end Sys2Proof
end

