-- ==== Sys2Proof/Decode.lean ====
section
/-! DEFINITION. The command-descriptor transport of 30_encoding.md: field encodings (R71-R75), the
opcode map (R77), the reference decoder `DescDecode` (R79) and, after it, the encoder written from
the same tables. -/

namespace Sys2Proof

/-! ## Field encodings -/

/-- The encoding column of 10_state.md R24 (30_encoding.md R72). -/
def Reg.code : Reg → BitVec 4
  | .b => 0x0#4
  | .c => 0x1#4
  | .d => 0x2#4
  | .e => 0x3#4
  | .h => 0x4#4
  | .l => 0x5#4
  | .a => 0x7#4
  | .bc => 0x8#4
  | .de => 0x9#4
  | .hl => 0xA#4
  | .sp => 0xB#4
  | .pc => 0xC#4

/-- The register a 4-bit code names; `none` for the reserved 0x6 and 0xD-0xF (R72). -/
def Reg.ofCode? (code : BitVec 4) : Option Reg :=
  match code.toNat with
  | 0 => some .b
  | 1 => some .c
  | 2 => some .d
  | 3 => some .e
  | 4 => some .h
  | 5 => some .l
  | 7 => some .a
  | 8 => some .bc
  | 9 => some .de
  | 10 => some .hl
  | 11 => some .sp
  | 12 => some .pc
  | _ => none

/-- The flag's bit position in `F` (10_state.md R32), which is also its index (30_encoding.md R73). -/
def Flag.pos : Flag → Nat
  | .c => 0
  | .p => 2
  | .ac => 4
  | .z => 6
  | .s => 7

/-- The flag a 3-bit index names under the profile; `none` where R73 reserves it. -/
def Flag.ofIndex? (p : FlagProfile) (index : BitVec 3) : Option Flag :=
  match index.toNat with
  | 0 => some .c
  | 2 => if Flag.inProfile p .p then some .p else none
  | 4 => if Flag.inProfile p .ac then some .ac else none
  | 6 => some .z
  | 7 => some .s
  | _ => none

/-- The ALU control code field (30_encoding.md R71). -/
def Ctl.code : Ctl → BitVec 4
  | .add => 0x0#4
  | .sub => 0x1#4

/-- The operation a 4-bit control code names; `none` for the reserved 0x2-0xF (R71). -/
def Ctl.ofCode? (code : BitVec 4) : Option Ctl :=
  match code.toNat with
  | 0 => some .add
  | 1 => some .sub
  | _ => none

/-- Bits 3:0 of a byte. -/
def loNibble (b : Byte) : BitVec 4 := b.extractLsb' 0 4

/-- Bits 7:4 of a byte. -/
def hiNibble (b : Byte) : BitVec 4 := b.extractLsb' 4 4

/-- Bits 2:0 of a byte: the flag index of a `JUMP_ON` or `COND` tag (R77). -/
def flagField (b : Byte) : BitVec 3 := b.extractLsb' 0 3

/-! ## The opcode map -/

/-- The rows of the opcode map. -/
inductive Opcode where
  | nop | load | store | arithAdd | arithSub | jump | jumpOn | push | pop | cond | halt
  deriving DecidableEq, Repr

/-- One row of 30_encoding.md R77: the tag byte's fixed bits and which bits they are. -/
structure OpcodeRow where
  fixed : Byte
  mask : Byte
  op : Opcode
  deriving DecidableEq, Repr

/-- The opcode map (30_encoding.md R77, spec/opcode_table.json). -/
def opcodeTable : List OpcodeRow :=
  [⟨0x00#8, 0xFF#8, .nop⟩,
   ⟨0x10#8, 0xF0#8, .load⟩,
   ⟨0x20#8, 0xFF#8, .store⟩,
   ⟨0x30#8, 0xFF#8, .arithAdd⟩,
   ⟨0x31#8, 0xFF#8, .arithSub⟩,
   ⟨0x40#8, 0xFF#8, .jump⟩,
   ⟨0x50#8, 0xF8#8, .jumpOn⟩,
   ⟨0x60#8, 0xFF#8, .push⟩,
   ⟨0x70#8, 0xF0#8, .pop⟩,
   ⟨0x80#8, 0xF0#8, .cond⟩,
   ⟨0xF0#8, 0xFF#8, .halt⟩]

/-- The row a tag byte belongs to; `none` for the tags R77 reserves. -/
def opcodeOf? (tag : Byte) : Option Opcode :=
  (opcodeTable.find? fun row => tag &&& row.mask == row.fixed).map (·.op)

/-! ## The decoder -/

/-- Why a decoder answers `Invalid`: the structural errors of R79, by name. -/
inductive DecodeError where
  /-- a tag that R77 reserves -/
  | reservedTag
  /-- an operand-descriptor byte with a mode, w, bit-4 or r pattern that R75 reserves -/
  | reservedOperandByte
  /-- a reserved register code in a tag, an operand descriptor or an ARITH destination byte (R72) -/
  | reservedRegister
  /-- an ARITH destination byte with bits 7:4 not zero (R77) -/
  | arithDstByte
  /-- a flag index that R73 reserves under the profile -/
  | reservedFlag
  /-- the 16th byte does not complete a descriptor (R81) -/
  | tooLong
  /-- bytes stand after a complete descriptor: no cycle gives the decoder such a list (log entry 6) -/
  | trailingBytes
  /-- a complete descriptor that fails these checks of R84 -/
  | illFormed (failed : List WfCheck)
  /-- a decoder other than `DescDecode` refuses the bytes (R80) -/
  | external
  deriving DecidableEq, Repr

/-- `DecodeResult` (30_encoding.md R80). -/
inductive DecodeResult where
  | instr (i : Instr)
  | needMore
  | invalid (why : DecodeError)
  deriving DecidableEq, Repr

/-- A `DECODER`: a function of the bytes fetched so far in the cycle, and of nothing else (R80). -/
abbrev Decoder := List Byte → DecodeResult

/-- What parsing a list of bytes from its left end gives. -/
inductive Parse (α : Type) where
  | done (v : α) (rest : List Byte)
  | more
  | bad (why : DecodeError)
  deriving DecidableEq, Repr

/-- Go on with the value and the bytes after it. -/
def Parse.bind {α β : Type} (p : Parse α) (k : α → List Byte → Parse β) : Parse β :=
  match p with
  | .done v rest => k v rest
  | .more => .more
  | .bad e => .bad e

/-- Build a larger term from the value. -/
def Parse.map {α β : Type} (f : α → β) (p : Parse α) : Parse β :=
  p.bind fun v rest => .done (f v) rest

/-- A 16-bit literal, low byte first (R75). -/
def parseWord : List Byte → Parse Word
  | lo :: hi :: rest => .done (ofHiLo hi lo) rest
  | _ => .more

/-- What an operand-descriptor byte says before its literal bytes. -/
inductive OperandForm where
  | imm8
  | imm16
  | reg (r : Reg)
  | dir
  | ind (r : Reg)
  deriving DecidableEq, Repr

/-- The fields of an operand-descriptor byte (R75): mode in bits 7:6, w in bit 5, bit 4 reserved,
r in bits 3:0. -/
def operandForm (od : Byte) : Except DecodeError OperandForm :=
  let r := loNibble od
  let named (mk : Reg → OperandForm) : Except DecodeError OperandForm :=
    match Reg.ofCode? r with
    | some reg => .ok (mk reg)
    | none => .error .reservedRegister
  let bare (form : OperandForm) : Except DecodeError OperandForm :=
    if r = 0x0#4 then .ok form else .error .reservedOperandByte
  match (od.extractLsb' 6 2).toNat, od.getLsbD 5, od.getLsbD 4 with
  | 0, false, false => bare .imm8
  | 0, true, false => bare .imm16
  | 1, false, false => named .reg
  | 2, false, false => bare .dir
  | 3, false, false => named .ind
  | _, _, _ => .error .reservedOperandByte

/-- An operand descriptor: its byte and its literal bytes (R75). -/
def parseOperand : List Byte → Parse Operand
  | [] => .more
  | od :: rest =>
    match operandForm od with
    | .error e => .bad e
    | .ok .imm8 =>
      match rest with
      | n :: rest' => .done (.imm8 n) rest'
      | [] => .more
    | .ok .imm16 => (parseWord rest).map .imm16
    | .ok (.reg r) => .done (.reg r) rest
    | .ok .dir => (parseWord rest).map .dir
    | .ok (.ind r) => .done (.ind r) rest

/-- The register a `LOAD` or `POP` tag names (R77). -/
def parseTagReg (tag : Byte) (rest : List Byte) : Parse Reg :=
  match Reg.ofCode? (loNibble tag) with
  | some r => .done r rest
  | none => .bad .reservedRegister

/-- The ARITH destination byte `0x0d` (R77). -/
def parseArithDst : List Byte → Parse Reg
  | [] => .more
  | d :: rest =>
    if hiNibble d = 0x0#4 then
      match Reg.ofCode? (loNibble d) with
      | some r => .done r rest
      | none => .bad .reservedRegister
    else .bad .arithDstByte

/-- The bytes of an `ARITH` after its tag: mask, destination, operand (R77). -/
def parseArith (mk : Byte → Reg → Operand → Instr) : List Byte → Parse Instr
  | [] => .more
  | m :: rest =>
    (parseArithDst rest).bind fun dst rest' => (parseOperand rest').map (mk m dst)

/-- The flag a `JUMP_ON` or `COND` tag names (R77). -/
def parseTagFlag (p : FlagProfile) (tag : Byte) (rest : List Byte) : Parse Flag :=
  match Flag.ofIndex? p (flagField tag) with
  | some g => .done g rest
  | none => .bad .reservedFlag

/-- The predicate of a `COND` tag: bit 3 is the polarity (R77). -/
def tagPred (tag : Byte) (g : Flag) : Pred := if tag.getLsbD 3 then .fset g else .fclr g

/-- One command descriptor, parsed left to right (R79). -/
def parseInstr (p : FlagProfile) : List Byte → Parse Instr
  | [] => .more
  | tag :: rest =>
    match opcodeOf? tag with
    | none => .bad .reservedTag
    | some .nop => .done .nop rest
    | some .load =>
      (parseTagReg tag rest).bind fun dst rest' => (parseOperand rest').map (.load dst)
    | some .store =>
      (parseOperand rest).bind fun dst rest' => (parseOperand rest').map (.store dst)
    | some .arithAdd => parseArith .arithAdd rest
    | some .arithSub => parseArith .arithSub rest
    | some .jump => (parseWord rest).map .jump
    | some .jumpOn =>
      (parseTagFlag p tag rest).bind fun g rest' => (parseWord rest').map fun a => .jumpOn a g
    | some .push => (parseOperand rest).map .push
    | some .pop => (parseTagReg tag rest).map .pop
    | some .cond =>
      match Flag.ofIndex? p (flagField tag) with
      | some g => (parseInstr p rest).map (.cond (tagPred tag g))
      | none => .bad .reservedFlag
    | some .halt => .done .halt rest

/-- The reference decoder `DescDecode` (30_encoding.md R79, R81). -/
def descDecode (p : FlagProfile) (bs : List Byte) : DecodeResult :=
  match parseInstr p bs with
  | .bad e => .invalid e
  | .more => if bs.length < Config.maxInsnLen then .needMore else .invalid .tooLong
  | .done i rest =>
    if rest ≠ [] then .invalid .trailingBytes
    else if Config.maxInsnLen < bs.length then .invalid .tooLong
    else if i.wf p then .instr i
    else .invalid (.illFormed (i.failedChecks p))

/-- The instruction that a stream of bytes begins with, read one byte at a time as a cycle reads it
(42_cycle.md R121); `read` are the bytes already read. -/
def decodeStream (dec : Decoder) (read : List Byte) : List Byte → Option Instr
  | [] => none
  | b :: rest =>
    match dec (read ++ [b]) with
    | .instr i => some i
    | .invalid _ => none
    | .needMore => decodeStream dec (read ++ [b]) rest

/-- The bytes of an instruction whose bits are `w`, the first byte in the least significant bits,
and zeros up to the longest instruction. -/
def tableBytes (nbits w : Nat) : List Byte :=
  (List.range Config.maxInsnLen).map fun k => BitVec.ofNat 8 ((w % 2 ^ nbits) / 256 ^ k)

/-- What the decoder reads, under the default profile, from an instruction of
spec/opcode_table.json. -/
def decodeTableWord (nbits w : Nat) : Option Instr :=
  decodeStream (descDecode Config.flagProfile) [] (tableBytes nbits w)

/-! ## The encoder -/

/-- A tag or descriptor byte with a register code in bits 3:0. -/
def withReg (fixed : Byte) (r : Reg) : Byte := fixed ||| r.code.setWidth 8

/-- An operand descriptor (R75). -/
def encodeOperand : Operand → List Byte
  | .imm8 n => [0x00#8, n]
  | .imm16 n => [0x20#8, loByte n, hiByte n]
  | .reg r => [withReg 0x40#8 r]
  | .dir a => [0x80#8, loByte a, hiByte a]
  | .ind r => [withReg 0xC0#8 r]

/-- The tag of a `COND`; a member of `PRED` has none (47_guard_nop_halt.md R133). -/
def encodePred : Pred → Option Byte
  | .fset g => some (0x88#8 ||| BitVec.ofNat 8 g.pos)
  | .fclr g => some (0x80#8 ||| BitVec.ofNat 8 g.pos)
  | .ext _ => none

/-- The command descriptor of a term (30_encoding.md R75, R77); `none` where a `COND` in it is
guarded by a member of `PRED`, which has no encoding (R133). -/
def encode : Instr → Option (List Byte)
  | .nop => some [0x00#8]
  | .load dst src => some (withReg 0x10#8 dst :: encodeOperand src)
  | .store dst src => some (0x20#8 :: (encodeOperand dst ++ encodeOperand src))
  | .arithAdd m dst rhs => some (0x30#8 :: m :: withReg 0x00#8 dst :: encodeOperand rhs)
  | .arithSub m dst rhs => some (0x31#8 :: m :: withReg 0x00#8 dst :: encodeOperand rhs)
  | .jump a => some [0x40#8, loByte a, hiByte a]
  | .jumpOn a g => some [0x50#8 ||| BitVec.ofNat 8 g.pos, loByte a, hiByte a]
  | .push src => some (0x60#8 :: encodeOperand src)
  | .pop dst => some [withReg 0x70#8 dst]
  | .cond q inner =>
    match encodePred q, encode inner with
    | some tag, some bytes => some (tag :: bytes)
    | _, _ => none
  | .halt => some [0xF0#8]

/-- The row of the opcode map a term belongs to. -/
def Instr.opcode : Instr → Opcode
  | .nop => .nop
  | .load _ _ => .load
  | .store _ _ => .store
  | .arithAdd _ _ _ => .arithAdd
  | .arithSub _ _ _ => .arithSub
  | .jump _ => .jump
  | .jumpOn _ _ => .jumpOn
  | .push _ => .push
  | .pop _ => .pop
  | .cond _ _ => .cond
  | .halt => .halt

/-- `len(od)` (30_encoding.md R78). -/
def Operand.descLength : Operand → Nat
  | .imm8 _ => 2
  | .imm16 _ => 3
  | .reg _ => 1
  | .dir _ => 3
  | .ind _ => 1

/-- The descriptor's length in bytes (30_encoding.md R78). -/
def Instr.descLength : Instr → Nat
  | .nop => 1
  | .load _ src => 1 + src.descLength
  | .store dst src => 1 + dst.descLength + src.descLength
  | .arithAdd _ _ rhs => 3 + rhs.descLength
  | .arithSub _ _ rhs => 3 + rhs.descLength
  | .jump _ => 3
  | .jumpOn _ _ => 3
  | .push src => 1 + src.descLength
  | .pop _ => 1
  | .cond _ inner => 1 + inner.descLength
  | .halt => 1

end Sys2Proof
end

