-- ==== Sys2Proof/Machine/State.lean ====
section
/-! DEFINITION. The architectural state (10_state.md R15), the reasons a step can stop, and the
state after reset (10_state.md R44). -/

namespace Sys2Proof.Machine

/-- `RUN` (10_state.md R42). -/
inductive RunState where
  | running
  | halted
  | error
  deriving DecidableEq, Repr

/-- The state of the block (10_state.md R15), and the machine's flag profile. -/
structure State where
  /-- the accumulator (R17) -/
  a : Byte
  /-- the flag register (R23, R32); bits outside `FMASK` read 0 (R34): `State.readF` -/
  f : Byte
  /-- the pair of `B` and `C` (R18) -/
  bc : Word
  /-- the pair of `D` and `E` (R19) -/
  de : Word
  /-- the pair of `H` and `L` (R20) -/
  hl : Word
  /-- the stack pointer (R21) -/
  sp : Word
  /-- the program counter (R22) -/
  pc : Word
  /-- the run state (R42) -/
  run : RunState
  /-- memory (20_memory.md R45): the bytes that do not read as `Config.unwrittenByte`, addresses
  strictly rising (`Memory.wf`) -/
  mem : List Host.Cell
  /-- the parameter `FLAG_PROFILE` of this machine (00_scope.md R7): not state of the spec's, no
  step changes it (log entry 3) -/
  profile : FlagProfile
  deriving DecidableEq, Repr

/-- Why a step has no next state. -/
inductive Fault where
  /-- raised by `cycle` where `RUN = Halted`: "no step exists" (42_cycle.md R120, R123). Safe: the
  spec gives this state no successor. It is no error of the machine (60_exceptions.md R142). -/
  | haltedNoStep
  /-- raised by `cycle` where `RUN = Error`: "no step exists" (42_cycle.md R120, R123). Safe: the
  spec gives this state no successor. -/
  | errorNoStep
  deriving DecidableEq, Repr

/-- Why an instruction is refused. -/
inductive Refusal where
  /-- raised by `exec` for an instruction without a meaning; no instruction of this model is. Safe:
  nothing can be proved of such an instruction. -/
  | notModelled (mnemonic : String)
  deriving DecidableEq, Repr

/-- The state after reset (10_state.md R44): `RUN` and `PC` as the spec gives them; every register
the spec calls a draw holds zero. DESIGN CHOICE, unsafe: log entry 1. -/
def State.reset : State where
  a := 0x00#8
  f := 0x00#8
  bc := 0x0000#16
  de := 0x0000#16
  hl := 0x0000#16
  sp := 0x0000#16
  pc := Config.resetPc
  run := .running
  mem := []
  profile := Config.flagProfile

end Sys2Proof.Machine

namespace Sys2Proof

/-- The parameter `PRED` (00_scope.md R7, 47_guard_nop_halt.md R133, D20): the `k`-th external
predicate, a total function of the state without side effect. No body, so nothing can be proved of
its value (log entry 5). -/
opaque Config.extPred : Nat → Machine.State → Bool

end Sys2Proof
end

