-- ==== Sys2Proof/Machine/Memory.lean ====
section
/-! DEFINITION. Memory as a list of address and byte pairs in one canonical form, and the two
operations of 20_memory.md R46 on it. -/

namespace Sys2Proof.Machine

/-- The byte at an address: `MemRead(addr, 1)` (20_memory.md R46). -/
def Memory.read (m : List Host.Cell) (addr : Nat) : Byte :=
  match m with
  | [] => Config.unwrittenByte
  | (a, x) :: rest => if a = addr then x else Memory.read rest addr

/-- The entry for a byte, none where an unlisted address reads as that byte. -/
def Memory.entry (addr : Nat) (v : Byte) (rest : List Host.Cell) : List Host.Cell :=
  if v = Config.unwrittenByte then rest else (addr, v) :: rest

/-- Set the byte at an address: `MemWrite(addr, 1, v)` (20_memory.md R46). -/
def Memory.write (m : List Host.Cell) (addr : Nat) (v : Byte) : List Host.Cell :=
  match m with
  | [] => Memory.entry addr v []
  | (a, x) :: rest =>
    if addr < a then Memory.entry addr v ((a, x) :: rest)
    else if addr = a then Memory.entry addr v rest
    else (a, x) :: Memory.write rest addr v

/-- The canonical form from address `lo` up: addresses strictly rising and inside the address
space, no entry equal to what an unlisted address reads as. -/
def Memory.wfFrom (lo : Nat) : List Host.Cell → Bool
  | [] => true
  | (a, x) :: rest =>
    decide (lo ≤ a) && decide (a < Config.memSize) && decide (x ≠ Config.unwrittenByte) &&
      Memory.wfFrom (a + 1) rest

/-- Memory is in its canonical form. -/
def Memory.wf (m : List Host.Cell) : Bool := Memory.wfFrom 0 m

/-- `MEM[addr]` (20_memory.md R46). -/
def State.readMem (s : State) (addr : Word) : Byte := Memory.read s.mem addr.toNat

/-- `MEM[addr] <- v` (20_memory.md R46, R54). -/
def State.writeMem (s : State) (addr : Word) (v : Byte) : State :=
  { s with mem := Memory.write s.mem addr.toNat v }

end Sys2Proof.Machine
end

