-- ==== Sys2Proof/Machine/Registers.lean ====
section
/-! DEFINITION. Register cells, byte views, the register multiplexer and mask views
(10_state.md R16-R30). -/

namespace Sys2Proof.Machine

/-! ## Cells and byte views -/

/-- The cells that a register code reaches (10_state.md R24). `F` is reached by none (R23). -/
inductive RegCell where
  | a | bc | de | hl | sp | pc
  deriving DecidableEq, Repr

/-- The half of a 16-bit cell that a byte view selects (10_state.md R25). -/
inductive Half where
  | high
  | low
  deriving DecidableEq, Repr

/-- The selector column of 10_state.md R24. -/
inductive Selector where
  | full
  | half (h : Half)
  deriving DecidableEq, Repr

/-- The cell column of 10_state.md R24. -/
def cellOf : Reg → RegCell
  | .b | .c | .bc => .bc
  | .d | .e | .de => .de
  | .h | .l | .hl => .hl
  | .a => .a
  | .sp => .sp
  | .pc => .pc

/-- The selector column of 10_state.md R24. -/
def selectorOf : Reg → Selector
  | .b | .d | .h => .half .high
  | .c | .e | .l => .half .low
  | .a | .bc | .de | .hl | .sp | .pc => .full

/-- `view_read` (10_state.md R25). -/
def viewRead (cell : Word) : Half → Byte
  | .high => hiByte cell
  | .low => loByte cell

/-- `view_write` (10_state.md R25). -/
def viewWrite (cell : Word) (h : Half) (v : Byte) : Word :=
  match h with
  | .high => (cell &&& 0x00FF#16) ||| (zextByte v <<< 8)
  | .low => (cell &&& 0xFF00#16) ||| zextByte v

/-- A cell's value; the 8-bit cell `A` in the low byte (30_encoding.md R66). -/
def State.readCell (s : State) : RegCell → Word
  | .a => zextByte s.a
  | .bc => s.bc
  | .de => s.de
  | .hl => s.hl
  | .sp => s.sp
  | .pc => s.pc

/-- Replace a cell's value; `A` takes the low byte (30_encoding.md R66). -/
def State.writeCell (s : State) (cell : RegCell) (v : Word) : State :=
  match cell with
  | .a => { s with a := loByte v }
  | .bc => { s with bc := v }
  | .de => { s with de := v }
  | .hl => { s with hl := v }
  | .sp => { s with sp := v }
  | .pc => { s with pc := v }

/-! ## The multiplexer -/

/-- `reg[c]` (10_state.md R26); an 8-bit code's value stands in the low byte, the high byte is 0
(30_encoding.md R66). -/
def State.readReg (s : State) (r : Reg) : Word :=
  match selectorOf r with
  | .full => s.readCell (cellOf r)
  | .half h => zextByte (viewRead (s.readCell (cellOf r)) h)

/-- `reg[c] <- v` (10_state.md R26); an 8-bit code uses the low byte of `v` (30_encoding.md R66). -/
def State.writeReg (s : State) (r : Reg) (v : Word) : State :=
  match selectorOf r with
  | .full => s.writeCell (cellOf r) v
  | .half h => s.writeCell (cellOf r) (viewWrite (s.readCell (cellOf r)) h (loByte v))

/-- Two codes share storage: the same cell, and not the two different halves of it
(10_state.md R27). -/
def overlaps (r q : Reg) : Bool :=
  cellOf r == cellOf q &&
    match selectorOf r, selectorOf q with
    | .half h, .half k => h == k
    | _, _ => true

/-! ## Mask views -/

/-- `ctz` (00_scope.md R9): the number of zero bits below the lowest one-bit. -/
def ctz {w : Nat} (m : BitVec w) : Nat := ((List.range w).takeWhile fun i => !m.getLsbD i).length

/-- `popcount` (00_scope.md R9). -/
def popcount {w : Nat} (m : BitVec w) : Nat := ((List.range w).filter fun i => m.getLsbD i).length

/-- A mask a view may have: nonzero, and one contiguous run of one-bits (10_state.md R29). That it
lies within the cell's width is its type. -/
def maskLegal {w : Nat} (m : BitVec w) : Bool :=
  decide (m ≠ 0#w) && decide (m >>> ctz m = BitVec.ofNat w (2 ^ popcount m - 1))

/-- A mask view of a `w`-bit cell: no other mask can be constructed (10_state.md R29). -/
structure MaskView (w : Nat) where
  mask : BitVec w
  legal : maskLegal mask = true

/-- Construct a mask view; refused where R29 says the mask is not legal. -/
def maskView? {w : Nat} (m : BitVec w) : Option (MaskView w) :=
  if h : maskLegal m = true then some ⟨m, h⟩ else none

/-- `mask_read` (10_state.md R28). -/
def maskRead {w : Nat} (view : MaskView w) (cell : BitVec w) : BitVec w :=
  (cell &&& view.mask) >>> ctz view.mask

/-- `mask_write` (10_state.md R28, 90_conflicts.md C2). -/
def maskWrite {w : Nat} (view : MaskView w) (cell v : BitVec w) : BitVec w :=
  (cell &&& ~~~view.mask) ||| ((v <<< ctz view.mask) &&& view.mask)

end Sys2Proof.Machine
end

