-- ==== Sys2Proof/Machine/Flags.lean ====
section
/-! DEFINITION. The ALU and every flag it computes (40_alu_flags.md R89-R95), the FlagSet
operations (R96-R98), the masked merge (R99) and the flag register's read (10_state.md R34). -/

namespace Sys2Proof.Machine

/-! ## FlagSets -/

/-- `set(s, g)` (40_alu_flags.md R97). -/
def flagsSet (fs : Byte) (g : Flag) : Byte := fs ||| (1#8 <<< g.pos)

/-- `reset(s, g)` (R97). -/
def flagsReset (fs : Byte) (g : Flag) : Byte := fs &&& ~~~(1#8 <<< g.pos)

/-- `get(s, g)` (R97). -/
def flagsGet (fs : Byte) (g : Flag) : Bool := fs.getLsbD g.pos

/-- `all_on` (R96, D33). -/
def flagsAllOn (p : FlagProfile) : Byte := p.fmask

/-- `all_off` (R96). -/
def flagsAllOff : Byte := 0x00#8

/-- `from_slice` (R98). -/
def flagsFromSlice (gs : List Flag) : Byte := gs.foldl flagsSet flagsAllOff

/-- A byte that is a FlagSet of the profile: all set bits in `FMASK` (R96). -/
def isFlagSet (p : FlagProfile) (fs : Byte) : Bool := wfMask p fs

/-- The masked merge `(f & M) | (F & ~M)` (R99, R100). -/
def flagsMerge (f mask old : Byte) : Byte := (f &&& mask) ||| (old &&& ~~~mask)

/-! ## The ALU -/

/-- What the ALU answers (R89). -/
structure AluOut where
  r : Byte
  f : Byte
  deriving DecidableEq, Repr

/-- One flag at its bit position. -/
def flagBit (g : Flag) (b : Bool) : Byte := (BitVec.ofBool b).setWidth 8 <<< g.pos

/-- `even_parity` (R93). -/
def evenParity (r : Byte) : Bool := popcount r % 2 == 0

/-- AC of `ADD`: the carry out of bit 3 (R94). -/
def acAdd (a b : Byte) : Bool :=
  decide (0x10 ≤ (loNibble a).toNat + (loNibble b).toNat)

/-- AC of `SUB` under each value of `AC_SUB_RULE` (R94). -/
def acSub (rule : AcSubRule) (a b : Byte) : Bool :=
  match rule with
  | .noHalfBorrow => decide ((loNibble b).toNat ≤ (loNibble a).toNat)
  | .halfBorrow => decide ((loNibble a).toNat < (loNibble b).toNat)

/-- The FlagSet of a result: C, Z and S, and under `I8080` P and AC (R90, R91, R93, R94). -/
def aluFlags (p : FlagProfile) (carry ac : Bool) (r : Byte) : Byte :=
  let base := flagBit .s (r.getLsbD 7) ||| flagBit .z (r == 0x00#8) ||| flagBit .c carry
  match p with
  | .generic => base
  | .i8080 => base ||| flagBit .ac ac ||| flagBit .p (evenParity r)

/-- `ADD` (R90): the 9-bit sum, its low byte and its carry-out. -/
def aluAdd (p : FlagProfile) (a b : Byte) : AluOut :=
  let s : BitVec 9 := a.setWidth 9 + b.setWidth 9
  let r : Byte := s.extractLsb' 0 8
  ⟨r, aluFlags p (s.getLsbD 8) (acAdd a b) r⟩

/-- `SUB` (R91): the wrapping difference and the borrow `a < b`. -/
def aluSub (p : FlagProfile) (rule : AcSubRule) (a b : Byte) : AluOut :=
  let r : Byte := a - b
  ⟨r, aluFlags p (BitVec.ult a b) (acSub rule a b) r⟩

/-- `ALU(ctl, a, b)` (R89). -/
def alu (p : FlagProfile) (rule : AcSubRule) (ctl : Ctl) (a b : Byte) : AluOut :=
  match ctl with
  | .add => aluAdd p a b
  | .sub => aluSub p rule a b

/-- `alu_acc_op` (42_cycle.md R119): the left operand is the accumulator; no flag is committed. -/
def State.aluAccOp (s : State) (ctl : Ctl) (b : Byte) : AluOut :=
  alu s.profile Config.acSubRule ctl s.a b

/-! ## The flag register -/

/-- `F` as it reads: the bits outside `FMASK` are 0 (10_state.md R34). -/
def State.readF (s : State) : Byte := s.f &&& s.profile.fmask

/-- `F <- (f & M) | (F & ~M)`: the only way `F` is written (40_alu_flags.md R99). -/
def State.commitFlags (s : State) (f mask : Byte) : State := { s with f := flagsMerge f mask s.f }

/-- `flag(g) = F[pos(g)]`, the committed flag (42_cycle.md R118). -/
def State.flag (s : State) (g : Flag) : Bool := flagsGet s.readF g

end Sys2Proof.Machine
end

