-- ==== Sys2Proof/Machine/Operands.lean ====
section
/-! DEFINITION. The operand resolver (41_operand_resolver.md R105-R111). -/

namespace Sys2Proof.Machine

/-- A value on the block's data paths (00_scope.md R11); an 8-bit value stands in the low byte of
`bits` (30_encoding.md R68). -/
structure Value where
  width : Width
  bits : Word
  deriving DecidableEq, Repr

/-- `DIR(a)`: the memory byte (R108). -/
def State.resolveDir (s : State) (addr : Word) : Value := ⟨.w8, zextByte (s.readMem addr)⟩

/-- `resolve(op)` (R105-R109); `IND` is `DIR` of the register's value (R109). -/
def State.resolve (s : State) : Operand → Value
  | .imm8 n => ⟨.w8, zextByte n⟩
  | .imm16 n => ⟨.w16, n⟩
  | .reg r => ⟨r.width, s.readReg r⟩
  | .dir addr => s.resolveDir addr
  | .ind r => s.resolveDir (s.readReg r)

/-- An 8-bit operand's value. -/
def State.resolveByte (s : State) (op : Operand) : Byte := loByte (s.resolve op).bits

/-- A 16-bit operand's value. -/
def State.resolveWord (s : State) (op : Operand) : Word := (s.resolve op).bits

end Sys2Proof.Machine
end

