-- ==== Sys2Proof/Machine/Ops.lean ====
section
/-! DEFINITION. The write set of an instruction and its commit (42_cycle.md R122), the error entry
(60_exceptions.md R137), the CPU Aggregate's primitives (42_cycle.md R112-R119) and the reset
(70_reset_and_hazards.md R153). The block has no trap entry and no return from one
(60_exceptions.md R144, R145): `raiseError` is its one failure outcome, and `resetWith` the only way
out of it. -/

namespace Sys2Proof.Machine

/-! ## Commit -/

/-- The writes of one instruction (42_cycle.md R122, D32): at most one register-code write, one
merge into `F` (a FlagSet and its mask), one memory byte, and writes of `SP`, `PC` and `RUN`. -/
structure WriteSet where
  reg : Option (Reg × Word) := none
  flags : Option (Byte × Byte) := none
  mem : Option (Word × Byte) := none
  sp : Option Word := none
  pc : Option Word := none
  run : Option RunState := none
  deriving DecidableEq, Repr

/-- The instruction writes nothing. -/
def noWrite : WriteSet := {}

/-- Apply a write that may be absent. -/
def applyWrite {α : Type} (w : Option α) (f : State → α → State) (s : State) : State :=
  match w with
  | some v => f s v
  | none => s

/-- Commit every write of an instruction at once (42_cycle.md R122). No two of them reach the same
cell, so their order here does not matter (R122, 10_state.md R31). -/
def commit (w : WriteSet) (s : State) : State :=
  let s := applyWrite w.reg (fun s x => s.writeReg x.1 x.2) s
  let s := applyWrite w.flags (fun s x => s.commitFlags x.1 x.2) s
  let s := applyWrite w.mem (fun s x => s.writeMem x.1 x.2) s
  let s := applyWrite w.sp (fun s v => { s with sp := v }) s
  let s := applyWrite w.pc (fun s v => { s with pc := v }) s
  applyWrite w.run (fun s v => { s with run := v }) s

/-! ## The error entry -/

/-- `raise Error(cause)` (60_exceptions.md R137): `RUN <- Error` and nothing else. The cause is not
architectural; `cycleCause` computes it outside the state. -/
def raiseError (s : State) : State := { s with run := .error }

/-- Execute a term with the write set its rule gives: commit it, or, where the term is ill-formed,
go to `Error` without other effect (30_encoding.md R84, 60_exceptions.md R139). -/
def perform (i : Instr) (w : WriteSet) (s : State) : Host.Outcome State Fault Refusal :=
  if i.wf s.profile then .next (commit w s) else .next (raiseError s)

/-! ## Primitives -/

/-- The byte `program_fetch` returns (42_cycle.md R113). -/
def State.fetchByte (s : State) : Byte := s.readMem s.pc

/-- The state after `program_fetch`: PC advances by 1, modulo 65,536 (42_cycle.md R113). -/
def State.afterFetch (s : State) : State := { s with pc := s.pc + 1#16 }

/-- The writes of `push(d8)` (42_cycle.md R114). -/
def pushWrites (v : Byte) (s : State) : WriteSet :=
  { mem := some (s.sp - 1#16, v), sp := some (s.sp - 1#16) }

/-- The byte `pop()` returns (42_cycle.md R115). -/
def State.popByte (s : State) : Byte := s.readMem s.sp

/-- The writes of `pop()` into a register code (42_cycle.md R115, 46_stack.md R132). -/
def popWrites (dst : Reg) (s : State) : WriteSet :=
  { reg := some (dst, zextByte s.popByte), sp := some (s.sp + 1#16) }

/-- The writes of `jump(a16)` (42_cycle.md R116). -/
def jumpWrites (target : Word) : WriteSet := { pc := some target }

/-- The writes of `jump_on(a16, g)` (42_cycle.md R117). -/
def jumpOnWrites (target : Word) (g : Flag) (s : State) : WriteSet :=
  if s.flag g then jumpWrites target else noWrite

/-! ## Reset -/

/-- The unspecified values that a reset gives the registers (70_reset_and_hazards.md R153, D22). -/
structure ResetDraws where
  a : Byte
  f : Byte
  bc : Word
  de : Word
  hl : Word
  sp : Word
  deriving DecidableEq, Repr

/-- Reset, a host action (70_reset_and_hazards.md R153): `RUN` and `PC` as the spec gives them, each
register its draw, the bits of `F` outside `FMASK` 0, memory as it is. -/
def State.resetWith (s : State) (d : ResetDraws) : State :=
  { s with
    a := d.a
    f := d.f &&& s.profile.fmask
    bc := d.bc
    de := d.de
    hl := d.hl
    sp := d.sp
    pc := Config.resetPc
    run := .running }

end Sys2Proof.Machine
end

