-- ==== Sys2Proof/Machine/Arithmetic.lean ====
section
/-! DEFINITION. ARITH(ADD) and ARITH(SUB) (44_arithmetic.md R127, R128). -/

namespace Sys2Proof.Machine

/-- The writes of an `ARITH`: the result to `dst`, the flags in `mask` to `F` (R127, R128). -/
def arithWrites (ctl : Ctl) (mask : Byte) (dst : Reg) (rhs : Operand) (s : State) : WriteSet :=
  let out := s.aluAccOp ctl (s.resolveByte rhs)
  { reg := some (dst, zextByte out.r), flags := some (out.f, mask) }

/-- `ARITH(ADD, mask, dst, rhs)` (R127). -/
def execArithAdd (mask : Byte) (dst : Reg) (rhs : Operand) (s : State) :
    Host.Outcome State Fault Refusal :=
  perform (.arithAdd mask dst rhs) (arithWrites .add mask dst rhs s) s

/-- `ARITH(SUB, mask, dst, rhs)` (R128). -/
def execArithSub (mask : Byte) (dst : Reg) (rhs : Operand) (s : State) :
    Host.Outcome State Fault Refusal :=
  perform (.arithSub mask dst rhs) (arithWrites .sub mask dst rhs s) s

end Sys2Proof.Machine
end

