-- ==== Sys2Proof/Machine/Jump.lean ====
section
/-! DEFINITION. JUMP and JUMP_ON (45_jump.md R129, R130). -/

namespace Sys2Proof.Machine

/-- `JUMP(target)` (R129). -/
def execJump (target : Word) (s : State) : Host.Outcome State Fault Refusal :=
  perform (.jump target) (jumpWrites target) s

/-- `JUMP_ON(target, g)` (R130): the flag is the committed one, tested before any write. -/
def execJumpOn (target : Word) (g : Flag) (s : State) : Host.Outcome State Fault Refusal :=
  perform (.jumpOn target g) (jumpOnWrites target g s) s

end Sys2Proof.Machine
end

