-- ==== Sys2Proof/Machine/LoadStore.lean ====
section
/-! DEFINITION. LOAD and STORE (43_load_store.md R125, R126). -/

namespace Sys2Proof.Machine

/-- The writes of `LOAD(dst, src)` (R125). -/
def loadWrites (dst : Reg) (src : Operand) (s : State) : WriteSet :=
  { reg := some (dst, (s.resolve src).bits) }

/-- `LOAD(dst, src)` (R125). -/
def execLoad (dst : Reg) (src : Operand) (s : State) : Host.Outcome State Fault Refusal :=
  perform (.load dst src) (loadWrites dst src s) s

/-- The writes of `STORE(dst, src)` (R126): the destination operand resolves to the address. -/
def storeWrites (dst src : Operand) (s : State) : WriteSet :=
  { mem := some (s.resolveWord dst, s.resolveByte src) }

/-- `STORE(dst, src)` (R126). -/
def execStore (dst src : Operand) (s : State) : Host.Outcome State Fault Refusal :=
  perform (.store dst src) (storeWrites dst src s) s

end Sys2Proof.Machine
end

