-- ==== Sys2Proof/Machine/Stack.lean ====
section
/-! DEFINITION. PUSH and POP (46_stack.md R131, R132). -/

namespace Sys2Proof.Machine

/-- `PUSH(src)` (R131). -/
def execPush (src : Operand) (s : State) : Host.Outcome State Fault Refusal :=
  perform (.push src) (pushWrites (s.resolveByte src) s) s

/-- `POP(dst)` (R132). -/
def execPop (dst : Reg) (s : State) : Host.Outcome State Fault Refusal :=
  perform (.pop dst) (popWrites dst s) s

end Sys2Proof.Machine
end

