-- ==== Sys2Proof/Machine/Guard.lean ====
section
/-! DEFINITION. COND, NOP and HALT (47_guard_nop_halt.md R133-R135). -/

namespace Sys2Proof.Machine

/-- The predicate of a `COND`, evaluated on the committed flags (R133, 42_cycle.md R118). -/
def State.holds (s : State) : Pred → Bool
  | .fset g => s.flag g
  | .fclr g => !s.flag g
  | .ext k => Config.extPred k s

/-- The writes of `HALT` (R135). -/
def haltWrites : WriteSet := { run := some .halted }

/-- `exec(i, state)` of 42_cycle.md R121: the write set that the instruction's rule gives. A `COND`
whose predicate fails writes nothing; one whose predicate holds writes what its inner instruction
writes, both read from the same state (R133). -/
def writesOf (i : Instr) (s : State) : WriteSet :=
  match i with
  | .nop => noWrite
  | .load dst src => loadWrites dst src s
  | .store dst src => storeWrites dst src s
  | .arithAdd mask dst rhs => arithWrites .add mask dst rhs s
  | .arithSub mask dst rhs => arithWrites .sub mask dst rhs s
  | .jump target => jumpWrites target
  | .jumpOn target g => jumpOnWrites target g s
  | .push src => pushWrites (s.resolveByte src) s
  | .pop dst => popWrites dst s
  | .cond q inner => if s.holds q then writesOf inner s else noWrite
  | .halt => haltWrites

/-- `COND(pred, inner)` (R133). -/
def execCond (q : Pred) (inner : Instr) (s : State) : Host.Outcome State Fault Refusal :=
  perform (.cond q inner) (if s.holds q then writesOf inner s else noWrite) s

/-- `NOP` (R134). -/
def execNop (s : State) : Host.Outcome State Fault Refusal :=
  perform .nop noWrite s

/-- `HALT` (R135). -/
def execHalt (s : State) : Host.Outcome State Fault Refusal :=
  perform .halt haltWrites s

end Sys2Proof.Machine
end

