-- ==== Sys2Proof/Machine/Dispatch.lean ====
section
/-! DEFINITION. One arm per instruction, each the call of its meaning. -/

namespace Sys2Proof.Machine

def exec (i : Instr) (s : State) : Host.Outcome State Fault Refusal :=
  match i with
  | .nop => Sys2Proof.Machine.execNop s
  | .load dst src => Sys2Proof.Machine.execLoad dst src s
  | .store dst src => Sys2Proof.Machine.execStore dst src s
  | .arithAdd mask dst rhs => Sys2Proof.Machine.execArithAdd mask dst rhs s
  | .arithSub mask dst rhs => Sys2Proof.Machine.execArithSub mask dst rhs s
  | .jump target => Sys2Proof.Machine.execJump target s
  | .jumpOn target g => Sys2Proof.Machine.execJumpOn target g s
  | .push src => Sys2Proof.Machine.execPush src s
  | .pop dst => Sys2Proof.Machine.execPop dst s
  | .cond q inner => Sys2Proof.Machine.execCond q inner s
  | .halt => Sys2Proof.Machine.execHalt s

end Sys2Proof.Machine
end

