-- ==== Sys2Proof/Machine/Cycle.lean ====
section
/-! DEFINITION. One cycle (42_cycle.md R120-R123): fetch, decode, check, execute; and the run under
fuel (R124). -/

namespace Sys2Proof.Machine

/-- What the fetch loop of a cycle leaves: the state with PC past the bytes fetched, those bytes, and
what they spell; `failed` names why they spell nothing. -/
structure Fetched where
  state : State
  bytes : List Byte
  verdict : Except DecodeError Instr

/-- The fetch loop of 42_cycle.md R121. `fuel` is how many more bytes may be fetched: none after
`MAX_INSN_LEN` (30_encoding.md R81). -/
def fetchLoop (dec : Decoder) : Nat → List Byte → State → Fetched
  | 0, bs, s => ⟨s, bs, .error .tooLong⟩
  | fuel + 1, bs, s =>
    let bs' := bs ++ [s.fetchByte]
    match dec bs' with
    | .instr i => ⟨s.afterFetch, bs', .ok i⟩
    | .invalid e => ⟨s.afterFetch, bs', .error e⟩
    | .needMore => fetchLoop dec fuel bs' s.afterFetch

/-- Fetch and decode one instruction from an empty byte list (42_cycle.md R121). -/
def fetchInsn (dec : Decoder) (s : State) : Fetched := fetchLoop dec Config.maxInsnLen [] s

/-- Fetch, decode and execute one instruction (42_cycle.md R121) in a state whose `RUN` is
`Running`. -/
def fetchExec (dec : Decoder) (s : State) : Host.Outcome State Fault Refusal :=
  let r := fetchInsn dec s
  match r.verdict with
  | .error _ => .next (raiseError r.state)
  | .ok i => if i.wf r.state.profile then exec i r.state else .next (raiseError r.state)

/-- `cycle()` with a given `DECODER` (42_cycle.md R120, R121; 30_encoding.md R80). The terminal states
have no successor. -/
def cycleWith (dec : Decoder) (s : State) : Host.Outcome State Fault Refusal :=
  match s.run with
  | .running => fetchExec dec s
  | .halted => .fault .haltedNoStep
  | .error => .fault .errorNoStep

/-- `cycle()` with the reference decoder under the machine's profile (30_encoding.md R63, R79). -/
def cycle (s : State) : Host.Outcome State Fault Refusal := cycleWith (descDecode s.profile) s

/-- The cause of an `Error` (60_exceptions.md R138, R139). -/
inductive Cause where
  | decodeFailure (bs : List Byte)
  | precondition (i : Instr)
  deriving DecidableEq, Repr

/-- The cause with which the cycle from this state raises `Error`, if it does: diagnostic data outside
the architectural state (60_exceptions.md R137). -/
def cycleCause (dec : Decoder) (s : State) : Option Cause :=
  match s.run with
  | .halted => none
  | .error => none
  | .running =>
    let r := fetchInsn dec s
    match r.verdict with
    | .error _ => some (.decodeFailure r.bytes)
    | .ok i => if i.wf r.state.profile then none else some (.precondition i)

/-- `run()` (42_cycle.md R124) under fuel: `cycle` while there is a successor. -/
def runCycles : Nat → State → State
  | 0, s => s
  | fuel + 1, s =>
    match cycle s with
    | .next s' => runCycles fuel s'
    | .fault _ => s
    | .refused _ => s

end Sys2Proof.Machine
end

