-- ==== Sys2Proof/Machine/HostPort.lean ====
section
/-! DEFINITION. What the host may do between runs: load memory (70_reset_and_hazards.md R155), set
registers and flags, and inspect state (60_exceptions.md R149). Reset is `State.resetWith`. -/

namespace Sys2Proof.Machine

/-- The loader: "a direct sequence of store calls", at addresses from `addr` up, modulo 65,536
(R155). -/
def State.loadBytes (s : State) (addr : Word) : List Byte → State
  | [] => s
  | b :: rest => (s.writeMem addr b).loadBytes (addr + 1#16) rest

/-- The host sets a register through the instructions' write path (R155). -/
def State.hostSetReg (s : State) (r : Reg) (v : Word) : State := s.writeReg r v

/-- The host sets flags through the instructions' write path (R155); a mask outside `FMASK` is
refused (30_encoding.md R67). -/
def State.hostSetFlags? (s : State) (f mask : Byte) : Option State :=
  if isFlagSet s.profile mask then some (s.commitFlags f mask) else none

/-- What inspection shows (60_exceptions.md R149) besides memory, which it reads by
`State.readMem`. -/
structure Inspection where
  regs : List (Reg × Word)
  f : Byte
  pc : Word
  sp : Word
  run : RunState
  deriving DecidableEq, Repr

/-- Every register code (10_state.md R24). -/
def allRegs : List Reg := [.b, .c, .d, .e, .h, .l, .a, .bc, .de, .hl, .sp, .pc]

/-- State inspection (60_exceptions.md R149). -/
def State.inspect (s : State) : Inspection :=
  ⟨allRegs.map fun r => (r, s.readReg r), s.readF, s.pc, s.sp, s.run⟩

end Sys2Proof.Machine
end

