-- ==== Sys2Proof/Machine/Step.lean ====
section
/-! DEFINITION. One step of the machine is one `cycle()` (42_cycle.md R121). -/

namespace Sys2Proof.Machine

/-- One step: one `cycle()`. -/
def step (s : State) : Host.Outcome State Fault Refusal := cycle s

/-- The state with an instruction of spec/opcode_table.json at PC and `RUN = Running`, so that the next
step runs it: the host's load before a run (70_reset_and_hazards.md R155; log entry 8). -/
def State.withFetchWord (s : State) (nbits w : Nat) : State :=
  { s with run := .running }.loadBytes s.pc (tableBytes nbits w)

end Sys2Proof.Machine
end

