-- ==== Sys2Proof/Machine/Ports.lean ====
section
/-! DEFINITION. The block's ports over raw codes (30_encoding.md R65-R69); a reserved code is
refused. -/

namespace Sys2Proof.Machine

/-- The ALU port (30_encoding.md R65): the result and the FlagSet; refused at a reserved control code
(40_alu_flags.md R92). -/
def aluPort (p : FlagProfile) (rule : AcSubRule) (ctl : BitVec 4) (a b : Byte) : Option AluOut :=
  (Ctl.ofCode? ctl).map fun c => alu p rule c a b

/-- The register file's read port (R66): the data, zero-extended, and its width. -/
def State.regReadPort (s : State) (code : BitVec 4) : Option Value :=
  (Reg.ofCode? code).map fun r => ⟨r.width, s.readReg r⟩

/-- The register file's write port (R66). -/
def State.regWritePort (s : State) (we : Bool) (code : BitVec 4) (data : Word) : Option State :=
  if we then (Reg.ofCode? code).map fun r => s.writeReg r data else some s

/-- The flag register's write port (R67): refused where the mask is no subset of `FMASK`. -/
def State.flagWritePort (s : State) (we : Bool) (f mask : Byte) : Option State :=
  if we then (if isFlagSet s.profile mask then some (s.commitFlags f mask) else none) else some s

/-- The operand that the resolver's inputs select (R68): mode and width as in an operand descriptor
(R75). -/
def portOperand (mode : BitVec 2) (wide : Bool) (lit : Word) (code : BitVec 4) : Option Operand :=
  match mode.toNat, wide with
  | 0, false => some (.imm8 (loByte lit))
  | 0, true => some (.imm16 lit)
  | 1, false => (Reg.ofCode? code).map .reg
  | 2, false => some (.dir lit)
  | 3, false =>
    match Reg.ofCode? code with
    | some r => if wfInd (.ind r) then some (.ind r) else none
    | none => none
  | _, _ => none

/-- The operand resolver's port (R68): value and width. -/
def State.operandPort (s : State) (mode : BitVec 2) (wide : Bool) (lit : Word) (code : BitVec 4) :
    Option Value :=
  (portOperand mode wide lit code).map s.resolve

/-- The memory's read port (R69). -/
def State.memReadPort (s : State) (addr : Word) : Byte := s.readMem addr

/-- The memory's write port (R69). -/
def State.memWritePort (s : State) (we : Bool) (addr : Word) (data : Byte) : State :=
  if we then s.writeMem addr data else s

end Sys2Proof.Machine
end

