-- ==== Sys2Proof/Machine/Pseudo.lean ====
section
/-! DEFINITION. The pseudo-instructions of 30_encoding.md R86: each stands for the terms it expands to and has
no encoding of its own. -/

namespace Sys2Proof.Machine

/-- The register pairs that `PUSHW` and `POPW` take (R86). -/
inductive Pair where
  | bc
  | de
  | hl
  deriving DecidableEq, Repr

/-- The pair's register code. -/
def Pair.whole : Pair → Reg
  | .bc => .bc
  | .de => .de
  | .hl => .hl

/-- `hi(rp)` (R86). -/
def Pair.hi : Pair → Reg
  | .bc => .b
  | .de => .d
  | .hl => .h

/-- `lo(rp)` (R86). -/
def Pair.lo : Pair → Reg
  | .bc => .c
  | .de => .e
  | .hl => .l

/-- The pseudo-instructions (R86); `jpe` and `jpo` are of the profile `I8080`. -/
inductive Pseudo where
  | jz (a : Word)
  | jc (a : Word)
  | jm (a : Word)
  | jnz (a : Word)
  | jnc (a : Word)
  | jp (a : Word)
  | jpe (a : Word)
  | jpo (a : Word)
  | adda (op : Operand)
  | suba (op : Operand)
  | pushw (rp : Pair)
  | popw (rp : Pair)
  | mov (r1 r2 : Reg)
  deriving DecidableEq, Repr

/-- The expansion (R86); `*` is the profile's `all_on`. -/
def Pseudo.expand (p : FlagProfile) : Pseudo → List Instr
  | .jz a => [.jumpOn a .z]
  | .jc a => [.jumpOn a .c]
  | .jm a => [.jumpOn a .s]
  | .jnz a => [.cond (.fclr .z) (.jump a)]
  | .jnc a => [.cond (.fclr .c) (.jump a)]
  | .jp a => [.cond (.fclr .s) (.jump a)]
  | .jpe a => [.jumpOn a .p]
  | .jpo a => [.cond (.fclr .p) (.jump a)]
  | .adda op => [.arithAdd p.fmask .a op]
  | .suba op => [.arithSub p.fmask .a op]
  | .pushw rp => [.push (.reg rp.hi), .push (.reg rp.lo)]
  | .popw rp => [.pop rp.lo, .pop rp.hi]
  | .mov r1 r2 => [.load r1 (.reg r2)]

end Sys2Proof.Machine
end

