-- ==== Sys2Proof/Safety.lean ====
section
/-! DEFINITION. The terms that claims about the machine are stated in: the invariant, the bytes at PC,
what a guarded instruction comes down to, what R31 says each instruction writes, and a safe run. -/

namespace Sys2Proof.Machine

/-- The invariant of the reachable states: memory is in its canonical form, and the bits of `F`
outside `FMASK` are 0 (10_state.md R34). -/
abbrev State.Inv (s : State) : Prop :=
  Memory.wf s.mem = true ∧ s.f &&& ~~~s.profile.fmask = 0x00#8

/-- The state with `n` bytes fetched (42_cycle.md R113). -/
def State.advance (s : State) (n : Nat) : State := { s with pc := s.pc + BitVec.ofNat 16 n }

/-- The `n` bytes from PC up, modulo 65,536: what `n` fetches return (42_cycle.md R113). -/
def State.bytesAt (s : State) (n : Nat) : List Byte :=
  (List.range n).map fun k => s.readMem (s.pc + BitVec.ofNat 16 k)

/-- The instruction inside every guard of a `COND` (47_guard_nop_halt.md R133). -/
def innermost : Instr → Instr
  | .cond _ inner => innermost inner
  | i => i

/-- The predicates of the guards around it all hold. -/
def guardsHold (s : State) : Instr → Bool
  | .cond q inner => s.holds q && guardsHold s inner
  | _ => true

/-- The registers an instruction writes (10_state.md R31), `F` and the fetch apart. -/
def writtenRegs (i : Instr) : List Reg :=
  match innermost i with
  | .load dst _ => [dst]
  | .arithAdd _ dst _ => [dst]
  | .arithSub _ dst _ => [dst]
  | .pop dst => [dst, .sp]
  | .push _ => [.sp]
  | .jump _ => [.pc]
  | .jumpOn _ _ => [.pc]
  | .store _ _ => []
  | .nop => []
  | .halt => []
  | .cond _ _ => []

/-- The flags an instruction may change (10_state.md R40). -/
def writtenFlags (i : Instr) : Byte :=
  match innermost i with
  | .arithAdd m _ _ => m
  | .arithSub m _ _ => m
  | .load _ _ | .store _ _ | .jump _ | .jumpOn _ _ | .push _ | .pop _ | .cond _ _ | .nop | .halt =>
    0x00#8

/-- The flag indices that 30_encoding.md R73 reserves under the profile. -/
def reservedIndex (p : FlagProfile) (n : Nat) : Bool :=
  n == 1 || n == 3 || n == 5 || (p == .generic && (n == 2 || n == 4))

/-- The register codes that 30_encoding.md R72 reserves. -/
def reservedCode (n : Nat) : Bool := n == 6 || (13 ≤ n && n ≤ 15)

/-- The tag bytes that no instruction begins with: those 30_encoding.md R77 lists as reserved, a `LOAD`
or `POP` tag with a reserved register code, a `POP` tag with a 16-bit code (46_stack.md R132), a
`JUMP_ON` or `COND` tag with a reserved flag index. -/
def refusedTag (p : FlagProfile) (n : Nat) : Bool :=
  (0x01 ≤ n && n ≤ 0x0F) || (0x21 ≤ n && n ≤ 0x2F) || (0x32 ≤ n && n ≤ 0x3F) ||
    (0x41 ≤ n && n ≤ 0x4F) || (0x58 ≤ n && n ≤ 0x5F) || (0x61 ≤ n && n ≤ 0x6F) ||
    (0x90 ≤ n && n ≤ 0xEF) || (0xF1 ≤ n && n ≤ 0xFF) ||
    (0x10 ≤ n && n ≤ 0x1F && reservedCode (n - 0x10)) ||
    (0x70 ≤ n && n ≤ 0x7F && (reservedCode (n - 0x70) || 8 ≤ n - 0x70)) ||
    (0x50 ≤ n && n ≤ 0x57 && reservedIndex p (n - 0x50)) ||
    (0x80 ≤ n && n ≤ 0x8F && reservedIndex p (n % 8))

/-- The operand-descriptor bytes that 30_encoding.md R75 reserves: bit 4 set; w set outside IMM; r not 0
in IMM or DIR; a reserved register code in REG or IND. -/
def refusedOperandByte (n : Nat) : Bool :=
  n / 16 % 2 == 1 || (n / 32 % 2 == 1 && n / 64 != 0) ||
    ((n / 64 == 0 || n / 64 == 2) && n % 16 != 0) ||
    ((n / 64 == 1 || n / 64 == 3) && reservedCode (n % 16))

/-- Execute terms one after the other, while each answers a next state. -/
def execAll : List Instr → State → Option State
  | [], s => some s
  | i :: rest, s =>
    match exec i s with
    | .next t => execAll rest t
    | .fault _ => none
    | .refused _ => none

/-- Pop `n` bytes into `dst` one after the other: the bytes in the order they come, and the last
state. -/
def popMany (dst : Reg) : Nat → State → Option (List Byte × State)
  | 0, s => some ([], s)
  | n + 1, s =>
    match exec (.pop dst) s with
    | .next t => (popMany dst n t).map fun r => (loByte (t.readReg dst) :: r.1, r.2)
    | .fault _ => none
    | .refused _ => none

/-- A run of `n` cycles that has not ended in `Error` (60_exceptions.md R142). -/
def SafeRun (n : Nat) (s : State) : Prop := (runCycles n s).run ≠ .error

end Sys2Proof.Machine
end

