-- ==== Sys2Proof/Certificates/Slice0/Obligations.lean ====
section
/-! DEFINITION. The statements about the machine that the provers are asked for, from the numbered rules of
spec/. -/

open Sys2Proof Sys2Proof.Machine

/-! ## Descriptors -/

/-- 30_encoding.md R75, R77, R79: the decoder reads every well-formed term back from its descriptor, at every
value of its operands and under both profiles. -/
def Obligations.DecodeOfEncode : Prop :=
  ∀ (p : FlagProfile) (i : Instr) (bs : List Byte),
    i.wf p = true → encode i = some bs → bs.length ≤ Config.maxInsnLen →
    descDecode p bs = .instr i

/-- 30_encoding.md R79, R81, R84: what the decoder answers is well-formed, fits the length bound, and is spelled
by exactly the bytes given; so no two byte lists spell one term. -/
def Obligations.EncodeOfDecode : Prop :=
  ∀ (p : FlagProfile) (i : Instr) (bs : List Byte),
    descDecode p bs = .instr i →
    i.wf p = true ∧ encode i = some bs ∧ bs.length ≤ Config.maxInsnLen

/-- 30_encoding.md R79: before its last byte the decoder wants more of a descriptor that spells an
instruction. -/
def Obligations.IncompleteDescriptorNeedsMore : Prop :=
  ∀ (p : FlagProfile) (i : Instr) (bs : List Byte) (k : Nat),
    descDecode p bs = .instr i → k < bs.length → descDecode p (bs.take k) = .needMore

/-- 30_encoding.md R80, `Invalid`: no extension of the bytes spells an instruction. -/
def Obligations.InvalidBytesHaveNoExtension : Prop :=
  ∀ (p : FlagProfile) (bs more : List Byte) (e : DecodeError) (i : Instr),
    descDecode p bs = .invalid e → descDecode p (bs ++ more) ≠ .instr i

/-- 30_encoding.md R77, R82, R80: the first bytes that no instruction begins with are exactly the listed ones, and the
decoder answers `Invalid` at them whatever follows. That it does so at a `POP` tag of a 16-bit code with bytes after it
is the model's reading (log entry 6, DEDUCED from R80): a complete ill-formed descriptor with bytes after it is a list
that R79's text, read to the letter, does not cover. -/
def Obligations.RefusedFirstBytes : Prop :=
  ∀ (p : FlagProfile) (tag : Byte),
    (refusedTag p tag.toNat = true → ∀ rest, ∃ e, descDecode p (tag :: rest) = .invalid e) ∧
    (refusedTag p tag.toNat = false → ∃ rest i, descDecode p (tag :: rest) = .instr i)

/-- 30_encoding.md R75, R77, R79, R82: behind any number of `COND` tags, these make the bytes `Invalid` whatever
follows: a reserved operand-descriptor byte as the operand of a LOAD or PUSH, as either operand of a STORE or as the
operand of an ARITH; an ARITH destination byte with bits 7:4 not zero or a reserved code; a reserved tag, a reserved
register code in a LOAD or POP tag, a reserved flag index in a JUMP_ON or COND tag. -/
def Obligations.RefusedLaterBytes : Prop :=
  ∀ (p : FlagProfile) (guards : List Byte) (od m d tag : Byte) (rest : List Byte),
    (∀ g ∈ guards, g.toNat / 16 = 8) →
    (refusedOperandByte od.toNat = true →
      (∀ dst : Reg, ∃ e,
        descDecode p (guards ++ withReg 0x10#8 dst :: od :: rest) = .invalid e) ∧
      (∃ e, descDecode p (guards ++ 0x20#8 :: od :: rest) = .invalid e) ∧
      (∀ dst : Operand, ∃ e,
        descDecode p (guards ++ 0x20#8 :: (encodeOperand dst ++ od :: rest)) = .invalid e) ∧
      (∃ e, descDecode p (guards ++ 0x60#8 :: od :: rest) = .invalid e) ∧
      (∀ dst : Reg, ∃ e,
        descDecode p (guards ++ 0x30#8 :: m :: withReg 0x00#8 dst :: od :: rest) = .invalid e) ∧
      (∀ dst : Reg, ∃ e,
        descDecode p (guards ++ 0x31#8 :: m :: withReg 0x00#8 dst :: od :: rest) = .invalid e)) ∧
    (d.toNat / 16 ≠ 0 ∨ reservedCode (d.toNat % 16) = true →
      (∃ e, descDecode p (guards ++ 0x30#8 :: m :: d :: rest) = .invalid e) ∧
      (∃ e, descDecode p (guards ++ 0x31#8 :: m :: d :: rest) = .invalid e)) ∧
    (refusedTag p tag.toNat = true → tag.toNat < 0x78 ∨ 0x7C < tag.toNat →
      ∃ e, descDecode p (guards ++ tag :: rest) = .invalid e)

/-- 30_encoding.md R87 and 95_test_vectors.md: descriptors written out from the encoding tables decode to the
instructions they stand for. -/
def Obligations.SampleDescriptors : Prop :=
  descDecode .generic [0x30#8, 0xC1#8, 0x07#8, 0x40#8] = .instr (.arithAdd 0xC1#8 .a (.reg .b)) ∧
  descDecode .generic [0x20#8, 0x20#8, 0x41#8, 0x31#8, 0x47#8] =
    .instr (.store (.imm16 0x3141#16) (.reg .a)) ∧
  descDecode .generic [0x86#8, 0x40#8, 0x05#8, 0x01#8] =
    .instr (.cond (.fclr .z) (.jump 0x0105#16)) ∧
  descDecode .i8080 [0x52#8, 0x00#8, 0x00#8] = .instr (.jumpOn 0x0000#16 .p)

/-! ## The cycle -/

/-- 42_cycle.md R121: where the bytes at PC decode to an instruction, a step executes it with PC past its
bytes. -/
def Obligations.StepRunsDecodedInstruction : Prop :=
  ∀ (s : State) (i : Instr) (n : Nat),
    s.run = .running → descDecode s.profile (s.bytesAt n) = .instr i →
    step s = exec i (s.advance n)

/-- 42_cycle.md R121, 30_encoding.md R75, R77: a step over the descriptor of a well-formed term executes that term,
wherever it stands in memory, across the top of memory too (20_memory.md R51). -/
def Obligations.StepRefinesTermExecution : Prop :=
  ∀ (s : State) (i : Instr) (bs : List Byte),
    s.run = .running → i.wf s.profile = true → encode i = some bs →
    bs.length ≤ Config.maxInsnLen → s.bytesAt bs.length = bs →
    step s = exec i (s.advance bs.length)

/-- 60_exceptions.md R137, R138, 30_encoding.md R81: with any decoder, a cycle whose bytes the decoder calls
`Invalid`, or of which it still wants more after 16, ends in `Error` with PC past the bytes fetched and nothing else
changed; the cause records the bytes. -/
def Obligations.DecodeFailureEndsInError : Prop :=
  ∀ (dec : Decoder) (s : State) (n : Nat),
    s.run = .running → 1 ≤ n → n ≤ 16 →
    (∀ k, 1 ≤ k → k < n → dec (s.bytesAt k) = .needMore) →
    ((∃ e, dec (s.bytesAt n) = .invalid e) ∨ (n = 16 ∧ dec (s.bytesAt n) = .needMore)) →
    cycleWith dec s = .next { s with pc := s.pc + BitVec.ofNat 16 n, run := .error } ∧
    cycleCause dec s = some (.decodeFailure (s.bytesAt n))

/-- 60_exceptions.md R137, R139: a decoder's term that fails `WF` ends the cycle in `Error` with PC past the bytes
fetched and nothing else changed; the cause records the term. -/
def Obligations.PreconditionViolationEndsInError : Prop :=
  ∀ (dec : Decoder) (s : State) (n : Nat) (i : Instr),
    s.run = .running → 1 ≤ n → n ≤ 16 →
    (∀ k, 1 ≤ k → k < n → dec (s.bytesAt k) = .needMore) →
    dec (s.bytesAt n) = .instr i → i.wf s.profile = false →
    cycleWith dec s = .next { s with pc := s.pc + BitVec.ofNat 16 n, run := .error } ∧
    cycleCause dec s = some (.precondition i)

/-- 60_exceptions.md R139, 30_encoding.md R84: an ill-formed term, a `COND` around one among them, goes to `Error`
without other effect; a well-formed one never does. -/
def Obligations.ExactlyIllFormedTermsFail : Prop :=
  ∀ (i : Instr) (s : State),
    (i.wf s.profile = false → exec i s = .next { s with run := .error }) ∧
    (i.wf s.profile = true → s.run = .running → ∃ t, exec i s = .next t ∧ t.run ≠ .error) ∧
    (∀ q : Pred, i.wf s.profile = false →
      exec (.cond q i) s = .next { s with run := .error })

/-- 42_cycle.md R120: with any decoder, a state has a successor exactly where `RUN = Running`; the terminal states
have none. -/
def Obligations.SuccessorExactlyWhileRunning : Prop :=
  ∀ (dec : Decoder) (s : State), (∃ t, cycleWith dec s = .next t) ↔ s.run = .running

/-- The model's names for the missing step of 42_cycle.md R120 (log entry 7): `Halted` and `Error` stop under names
of their own, so that the two stay apart (60_exceptions.md R142). -/
def Obligations.TerminalStatesStopByName : Prop :=
  ∀ (dec : Decoder) (s : State),
    (s.run = .halted → cycleWith dec s = .fault .haltedNoStep) ∧
    (s.run = .error → cycleWith dec s = .fault .errorNoStep)

/-- 60_exceptions.md R137: whatever the decoder and the instruction, a cycle that ends in `Error` has changed
nothing but `RUN` and PC, and PC has advanced past exactly the bytes it fetched: between 1 and 16 of them, those that
stand at PC. -/
def Obligations.ErrorIsPrecise : Prop :=
  ∀ (dec : Decoder) (s t : State),
    cycleWith dec s = .next t → t.run = .error →
    ∃ n, 1 ≤ n ∧ n ≤ 16 ∧ (fetchInsn dec s).bytes = s.bytesAt n ∧
      t = { s with pc := s.pc + BitVec.ofNat 16 n, run := .error }

/-- 42_cycle.md R123, 47_guard_nop_halt.md R135: only a `HALT`, bare or inside guards that all hold, leads to
`Halted`, and then PC is past the instruction and nothing else has changed. -/
def Obligations.OnlyHaltReachesHalted : Prop :=
  ∀ (s t : State),
    step s = .next t → t.run = .halted →
    ∃ n i, descDecode s.profile (s.bytesAt n) = .instr i ∧ innermost i = .halt ∧
      guardsHold (s.advance n) i = true ∧
      t = { s with pc := s.pc + BitVec.ofNat 16 n, run := .halted }

/-- 42_cycle.md R124: a run under fuel stands still once it is terminal, and is a prolongation of every shorter
run. -/
def Obligations.RunEndsExactlyAtTerminalStates : Prop :=
  ∀ (m n : Nat) (s : State),
    runCycles (m + n) s = runCycles n (runCycles m s) ∧
    ((runCycles m s).run ≠ .running → runCycles (m + n) s = runCycles m s) ∧
    ((runCycles m s).run = .running → ∃ t, step (runCycles m s) = .next t ∧
      runCycles (m + 1) s = t)

/-- 10_state.md R34 and the model's canonical memory: every cycle, with any decoder, keeps the invariant and the
machine's flag profile. -/
def Obligations.CycleKeepsInvariant : Prop :=
  ∀ (dec : Decoder) (s t : State),
    s.Inv → cycleWith dec s = .next t → t.Inv ∧ t.profile = s.profile

/-- 10_state.md R44, 70_reset_and_hazards.md R154: what reset leaves of what the spec gives: `Running`, the entry
point 0x0000, the bits of `F` outside `FMASK` zero; and the invariant holds. -/
def Obligations.ResetStateMeetsInvariant : Prop :=
  State.reset.Inv ∧ State.reset.run = .running ∧ State.reset.pc = 0x0000#16 ∧
  State.reset.f &&& ~~~State.reset.profile.fmask = 0x00#8

/-- 70_reset_and_hazards.md R153: reset of any state, with any draws: `Running`, PC at the entry point, the bits of
`F` outside `FMASK` 0, the registers their draws, memory unchanged. -/
def Obligations.ResetGivesDrawsAndKeepsMemory : Prop :=
  ∀ (s : State) (d : ResetDraws),
    (s.resetWith d).run = .running ∧ (s.resetWith d).pc = Config.resetPc ∧
    (s.resetWith d).f &&& ~~~s.profile.fmask = 0x00#8 ∧
    (s.resetWith d).readF = d.f &&& s.profile.fmask ∧
    (∀ a : Word, (s.resetWith d).readMem a = s.readMem a) ∧
    (s.resetWith d).a = d.a ∧ (s.resetWith d).bc = d.bc ∧ (s.resetWith d).de = d.de ∧
    (s.resetWith d).hl = d.hl ∧ (s.resetWith d).sp = d.sp

/-- 70_reset_and_hazards.md R155: the loader stores its bytes one after the other, wrapping at the top of memory,
and touches nothing else; `RUN` stays as it is (60_exceptions.md R145). -/
def Obligations.LoaderStoresItsBytes : Prop :=
  ∀ (s : State) (a : Word) (bs : List Byte),
    s.Inv → bs.length ≤ 65536 →
    ∃ m, s.loadBytes a bs = { s with mem := m } ∧
      (∀ (k : Nat) (h : k < bs.length),
        (s.loadBytes a bs).readMem (a + BitVec.ofNat 16 k) = bs[k]) ∧
      (∀ b : Word, (∀ k, k < bs.length → b ≠ a + BitVec.ofNat 16 k) →
        (s.loadBytes a bs).readMem b = s.readMem b)

/-! ## Registers, operands, the ALU -/

/-- 10_state.md R27: writing one byte of a pair leaves the other byte alone, and a 16-bit write changes both; a mask
view's write leaves every bit outside its mask alone. -/
def Obligations.ByteViewsAlias : Prop :=
  (∀ (s : State) (v : Word) (x : Byte) (pair hi lo : Reg),
    ((pair, hi, lo) = (.bc, .b, .c) ∨ (pair, hi, lo) = (.de, .d, .e) ∨
      (pair, hi, lo) = (.hl, .h, .l)) →
    ((s.writeReg pair v).writeReg lo (zextByte x)).readReg hi = v >>> 8 ∧
    ((s.writeReg pair v).writeReg hi (zextByte x)).readReg lo = v &&& 0x00FF#16 ∧
    (s.writeReg pair v).readReg hi = v >>> 8 ∧
    (s.writeReg pair v).readReg lo = v &&& 0x00FF#16 ∧
    s.readReg pair = (s.readReg hi <<< 8) ||| s.readReg lo) ∧
  ∀ (w : Nat) (view : MaskView w) (cell v : BitVec w),
    maskWrite view cell v &&& ~~~view.mask = cell &&& ~~~view.mask

/-- 10_state.md R26, R30: the multiplexer over all twelve codes: a register reads back what was written at its
width, every code that shares no storage with it keeps its value, and nothing but registers changes. -/
def Obligations.MultiplexerReadsBackWrites : Prop :=
  ∀ (s : State) (r : Reg) (v : Word),
    ((s.writeReg r v).readReg r = if r.width = .w8 then zextByte (loByte v) else v) ∧
    (∀ q : Reg, overlaps r q = false → (s.writeReg r v).readReg q = s.readReg q) ∧
    (s.writeReg r v).f = s.f ∧ (s.writeReg r v).run = s.run ∧ (s.writeReg r v).mem = s.mem

/-- 10_state.md R28, R29, 90_conflicts.md C2: a mask view reads back the low bits of what was written, as many as the
mask has, and changes no bit of the cell outside its mask. -/
def Obligations.MaskViewReadsBackWrites : Prop :=
  ∀ (w : Nat) (view : MaskView w) (cell v : BitVec w),
    maskRead view (maskWrite view cell v) = v &&& BitVec.ofNat w (2 ^ popcount view.mask - 1) ∧
    maskWrite view cell v &&& ~~~view.mask = cell &&& ~~~view.mask

/-- 41_operand_resolver.md R106-R109: the value and width of each operand form; `IND` is `DIR` of the register's
value. -/
def Obligations.OperandValues : Prop :=
  ∀ (s : State) (n : Byte) (v : Word) (r : Reg),
    s.resolve (.imm8 n) = ⟨.w8, n.setWidth 16⟩ ∧ s.resolve (.imm16 v) = ⟨.w16, v⟩ ∧
    s.resolve (.reg r) = ⟨r.width, s.readReg r⟩ ∧
    s.resolve (.dir v) = ⟨.w8, (s.readMem v).setWidth 16⟩ ∧
    s.resolve (.ind r) = s.resolve (.dir (s.readReg r)) ∧
    (∀ op : Operand, (s.resolve op).width = op.width)

/-- 40_alu_flags.md R90, R93, R94, R95: ADD's result and every bit of its FlagSet, under both profiles. -/
def Obligations.AluAddResultAndFlags : Prop :=
  ∀ (p : FlagProfile) (rule : AcSubRule) (a b : Byte),
    let out := alu p rule .add a b
    out.r.toNat = (a.toNat + b.toNat) % 256 ∧
    out.f.getLsbD 0 = decide (255 < a.toNat + b.toNat) ∧
    out.f.getLsbD 6 = decide ((a.toNat + b.toNat) % 256 = 0) ∧
    out.f.getLsbD 7 = decide (128 ≤ (a.toNat + b.toNat) % 256) ∧
    out.f.getLsbD 4 = (decide (p = .i8080) && decide (16 ≤ a.toNat % 16 + b.toNat % 16)) ∧
    out.f.getLsbD 2 = (decide (p = .i8080) && decide (popcount out.r % 2 = 0)) ∧
    out.f.getLsbD 1 = false ∧ out.f.getLsbD 3 = false ∧ out.f.getLsbD 5 = false

/-- 40_alu_flags.md R91, R93, R94, R95: SUB's result and every bit of its FlagSet, under both profiles and both
readings of the OPEN `AC_SUB_RULE`. -/
def Obligations.AluSubResultAndFlags : Prop :=
  ∀ (p : FlagProfile) (rule : AcSubRule) (a b : Byte),
    let out := alu p rule .sub a b
    out.r.toNat = (a.toNat + 256 - b.toNat) % 256 ∧
    out.f.getLsbD 0 = decide (a.toNat < b.toNat) ∧
    out.f.getLsbD 6 = decide (a = b) ∧
    out.f.getLsbD 7 = decide (128 ≤ (a.toNat + 256 - b.toNat) % 256) ∧
    (p = .generic → out.f.getLsbD 4 = false) ∧
    (p = .i8080 → rule = .noHalfBorrow →
      out.f.getLsbD 4 = decide (b.toNat % 16 ≤ a.toNat % 16)) ∧
    (p = .i8080 → rule = .halfBorrow →
      out.f.getLsbD 4 = decide (a.toNat % 16 < b.toNat % 16)) ∧
    out.f.getLsbD 2 = (decide (p = .i8080) && decide (popcount out.r % 2 = 0)) ∧
    out.f.getLsbD 1 = false ∧ out.f.getLsbD 3 = false ∧ out.f.getLsbD 5 = false

/-- 40_alu_flags.md R102: how SUB relates to ADD. -/
def Obligations.SubtractionRelatesToAddition : Prop :=
  ∀ (p : FlagProfile) (rule : AcSubRule) (a b : Byte),
    (alu p rule .sub a b).r = (alu p rule .add a (~~~b + 1#8)).r ∧
    (b ≠ 0x00#8 → flagsGet (alu p rule .sub a b).f .c =
      !flagsGet (alu p rule .add a (~~~b + 1#8)).f .c) ∧
    flagsGet (alu p rule .sub a b).f .z = decide (a = b) ∧
    flagsGet (alu p rule .sub a b).f .c = decide (a.toNat < b.toNat)

/-- 40_alu_flags.md R99, R104: the masked merge changes the flags in its mask and no other bit, R104's example among
them; all-on replaces every flag of the profile, all-off changes nothing. -/
def Obligations.MaskedCommitChangesMaskedFlagsOnly : Prop :=
  ∀ (s : State) (f mask : Byte) (k : Nat),
    ((s.commitFlags f mask).f.getLsbD k =
      if mask.getLsbD k then f.getLsbD k else s.f.getLsbD k) ∧
    (s.Inv → isFlagSet s.profile f = true →
      (s.commitFlags f (flagsAllOn s.profile)).f = f) ∧
    s.commitFlags f flagsAllOff = s ∧
    (∀ p rule, ({ s with f := 0x00#8 }.commitFlags (alu p rule .sub 20#8 50#8).f 0x01#8).f = 0x01#8)

/-- 40_alu_flags.md R92, 30_encoding.md R66, R67, R72: the ports refuse exactly the reserved ALU codes, the reserved
register codes and the masks outside `FMASK`. -/
def Obligations.PortsRefuseReservedCodes : Prop :=
  ∀ (s : State) (p : FlagProfile) (rule : AcSubRule) (code : BitVec 4) (a b f mask : Byte)
    (data : Word),
    (aluPort p rule code a b = none ↔ 2 ≤ code.toNat) ∧
    (s.regReadPort code = none ↔ reservedCode code.toNat = true) ∧
    (s.regWritePort true code data = none ↔ reservedCode code.toNat = true) ∧
    (s.flagWritePort true f mask = none ↔ mask &&& ~~~s.profile.fmask ≠ 0x00#8)

/-! ## What each instruction does, and its frame -/

/-- 43_load_store.md R125: a well-formed LOAD, every destination and operand form, completes: the destination reads
as the operand's value in the state before, every register that shares no storage with it keeps its value, and `F`,
memory and `RUN` are unchanged. -/
def Obligations.LoadResult : Prop :=
  ∀ (dst : Reg) (src : Operand) (s : State),
    (Instr.load dst src).wf s.profile = true →
    ∃ t, exec (.load dst src) s = .next t ∧ t.readReg dst = (s.resolve src).bits ∧
      (∀ q : Reg, overlaps dst q = false → t.readReg q = s.readReg q) ∧
      (dst = .pc → t.pc = (s.resolve src).bits) ∧ (dst ≠ .pc → t.pc = s.pc) ∧
      t.f = s.f ∧ (∀ b : Word, t.readMem b = s.readMem b) ∧ t.run = s.run ∧
      t.profile = s.profile

/-- 43_load_store.md R126: a well-formed STORE completes: the byte at the destination's address is the source's
value in the state before, every other byte of memory and everything else is unchanged. -/
def Obligations.StoreResult : Prop :=
  ∀ (dst src : Operand) (s : State),
    s.Inv → (Instr.store dst src).wf s.profile = true →
    ∃ m, exec (.store dst src) s = .next { s with mem := m } ∧
      ∀ b : Word, Memory.read m b.toNat =
        if b = s.resolveWord dst then s.resolveByte src else s.readMem b

/-- 44_arithmetic.md R127, 40_alu_flags.md R99, R100: a well-formed ARITH ADD completes: the destination reads as the
wrapping sum of `A` and the operand; each flag in the mask is the ALU's, every other bit of `F` is unchanged; so are
every other register, PC, memory and `RUN`. -/
def Obligations.AddResult : Prop :=
  ∀ (mask : Byte) (dst : Reg) (rhs : Operand) (s : State),
    (Instr.arithAdd mask dst rhs).wf s.profile = true →
    ∃ t, exec (.arithAdd mask dst rhs) s = .next t ∧
      t.readReg dst = (s.a + s.resolveByte rhs).setWidth 16 ∧
      (∀ k, t.f.getLsbD k = if mask.getLsbD k then
        (alu s.profile Config.acSubRule .add s.a (s.resolveByte rhs)).f.getLsbD k
        else s.f.getLsbD k) ∧
      (∀ q : Reg, overlaps dst q = false → t.readReg q = s.readReg q) ∧ t.pc = s.pc ∧
      (∀ b : Word, t.readMem b = s.readMem b) ∧ t.run = s.run ∧ t.profile = s.profile

/-- 44_arithmetic.md R128, 40_alu_flags.md R99, R100: as for ADD, with the wrapping difference. The auxiliary carry
under `I8080` is the model's OPEN constant (log entry 4). -/
def Obligations.SubResult : Prop :=
  ∀ (mask : Byte) (dst : Reg) (rhs : Operand) (s : State),
    (Instr.arithSub mask dst rhs).wf s.profile = true →
    ∃ t, exec (.arithSub mask dst rhs) s = .next t ∧
      t.readReg dst = (s.a - s.resolveByte rhs).setWidth 16 ∧
      (∀ k, t.f.getLsbD k = if mask.getLsbD k then
        (alu s.profile Config.acSubRule .sub s.a (s.resolveByte rhs)).f.getLsbD k
        else s.f.getLsbD k) ∧
      (∀ q : Reg, overlaps dst q = false → t.readReg q = s.readReg q) ∧ t.pc = s.pc ∧
      (∀ b : Word, t.readMem b = s.readMem b) ∧ t.run = s.run ∧ t.profile = s.profile

/-- 45_jump.md R129: JUMP sets PC to its target and changes nothing else, as a term and from its three bytes. -/
def Obligations.JumpResult : Prop :=
  (∀ (target : Word) (s : State), exec (.jump target) s = .next { s with pc := target }) ∧
  ∀ (lo hi : Byte) (s : State),
    s.run = .running → s.bytesAt 3 = [0x40#8, lo, hi] →
    step s = .next { s with pc := ofHiLo hi lo }

/-- 45_jump.md R130: JUMP_ON on a flag of the profile sets PC to its target if the committed flag is 1 and falls
through otherwise, and changes nothing else, as a term and from its three bytes. -/
def Obligations.JumpOnResult : Prop :=
  (∀ (target : Word) (g : Flag) (s : State), g.inProfile s.profile = true →
    exec (.jumpOn target g) s =
      .next { s with pc := if s.readF.getLsbD g.pos then target else s.pc }) ∧
  ∀ (g : Flag) (lo hi : Byte) (s : State),
    g.inProfile s.profile = true → s.run = .running →
    s.bytesAt 3 = [0x50#8 + BitVec.ofNat 8 g.pos, lo, hi] →
    step s = .next { s with
      pc := if s.readF.getLsbD g.pos then ofHiLo hi lo else s.pc + 3#16 }

/-- 46_stack.md R131: a well-formed PUSH completes: the byte below the old SP is the operand's value in the state
before, SP is one lower modulo 65,536, every other byte of memory and everything else is unchanged. -/
def Obligations.PushResult : Prop :=
  ∀ (src : Operand) (s : State),
    s.Inv → (Instr.push src).wf s.profile = true →
    ∃ m, exec (.push src) s = .next { s with sp := s.sp - 1#16, mem := m } ∧
      ∀ b : Word, Memory.read m b.toNat =
        if b = s.sp - 1#16 then s.resolveByte src else s.readMem b

/-- 46_stack.md R132: a POP into an 8-bit code completes: the destination is the byte at the old SP, SP is one
higher modulo 65,536, the byte stays in memory, every other register, `F`, PC and `RUN` are unchanged. -/
def Obligations.PopResult : Prop :=
  ∀ (dst : Reg) (s : State),
    dst.width = .w8 →
    ∃ t, exec (.pop dst) s = .next t ∧ t.readReg dst = (s.readMem s.sp).setWidth 16 ∧
      t.sp = s.sp + 1#16 ∧
      (∀ q : Reg, overlaps dst q = false → q ≠ .sp → t.readReg q = s.readReg q) ∧
      t.pc = s.pc ∧ t.f = s.f ∧ (∀ b : Word, t.readMem b = s.readMem b) ∧ t.run = s.run ∧
      t.profile = s.profile

/-- 47_guard_nop_halt.md R133: a well-formed COND completes: it does what its inner instruction does in the same
state where the predicate holds, and nothing where it does not; the predicate of a flag is the committed flag. -/
def Obligations.CondResult : Prop :=
  ∀ (q : Pred) (inner : Instr) (s : State),
    (Instr.cond q inner).wf s.profile = true →
    (∃ t, exec inner s = .next t ∧
      exec (.cond q inner) s = .next (if s.holds q then t else s)) ∧
    (∀ g : Flag, q = .fset g → s.holds q = s.readF.getLsbD g.pos) ∧
    (∀ g : Flag, q = .fclr g → s.holds q = !s.readF.getLsbD g.pos)

/-- 47_guard_nop_halt.md R133: two nested guards act as their conjunction. -/
def Obligations.NestedGuardsAreConjunction : Prop :=
  ∀ (q r : Pred) (inner : Instr) (s : State),
    (Instr.cond q (.cond r inner)).wf s.profile = true →
    exec (.cond q (.cond r inner)) s =
      (if s.holds q && s.holds r then exec inner s else .next s) ∧
    exec (.cond q (.cond r inner)) s = exec (.cond r (.cond q inner)) s

/-- 47_guard_nop_halt.md R134: NOP changes nothing but PC, by one. -/
def Obligations.NopResult : Prop :=
  (∀ s : State, exec .nop s = .next s) ∧
  ∀ s : State, s.run = .running → s.readMem s.pc = 0x00#8 →
    step s = .next { s with pc := s.pc + 1#16 }

/-- 47_guard_nop_halt.md R135: HALT sets `RUN` to `Halted` and changes nothing else but PC, by one; after it no step
exists. -/
def Obligations.HaltResult : Prop :=
  (∀ s : State, exec .halt s = .next { s with run := .halted }) ∧
  ∀ s : State, s.run = .running → s.readMem s.pc = 0xF0#8 →
    step s = .next { s with pc := s.pc + 1#16, run := .halted } ∧
    step { s with pc := s.pc + 1#16, run := .halted } = .fault .haltedNoStep

/-! ## Rules over all instructions -/

/-- 10_state.md R31, D35: no instruction changes a register outside its row of the table of R31. -/
def Obligations.OnlyListedRegistersAreWritten : Prop :=
  ∀ (i : Instr) (s t : State) (q : Reg),
    exec i s = .next t → (∀ r ∈ writtenRegs i, overlaps r q = false) →
    t.readReg q = s.readReg q

/-- 10_state.md R40: no instruction but an ARITH, bare or guarded, changes `F`, and an ARITH only the bits in its
commit mask; fetching changes none. -/
def Obligations.OnlyArithmeticWritesFlags : Prop :=
  (∀ (i : Instr) (s t : State) (k : Nat),
    exec i s = .next t → (writtenFlags i).getLsbD k = false →
    t.f.getLsbD k = s.f.getLsbD k) ∧
  (∀ (dec : Decoder) (s : State), (fetchInsn dec s).state.f = s.f)

/-- 20_memory.md R47, R48, 30_encoding.md R69: only STORE and PUSH, bare or guarded, write memory, and then one byte
at the address their rule gives. -/
def Obligations.OnlyStoreAndPushWriteMemory : Prop :=
  ∀ (i : Instr) (s t : State) (b : Word),
    exec i s = .next t →
    (∀ dst src, innermost i = .store dst src → b ≠ s.resolveWord dst) →
    (∀ src, innermost i = .push src → b ≠ s.sp - 1#16) →
    t.readMem b = s.readMem b

/-- 10_state.md R23: instructions that neither commit nor test flags act alike whatever `F` holds, and leave it as
they found it. -/
def Obligations.FlagsDoNotLeak : Prop :=
  ∀ (i : Instr) (s t : State) (f : Byte),
    (∀ a g, i ≠ .jumpOn a g) → (∀ q j, i ≠ .cond q j) → (∀ m dst o, i ≠ .arithAdd m dst o) →
    (∀ m dst o, i ≠ .arithSub m dst o) → exec i s = .next t →
    exec i { s with f := f } = .next { t with f := f }

/-- 20_memory.md R61, R58, 70_reset_and_hazards.md R160: after a well-formed STORE or PUSH the bytes that fetches read
from PC up are those of before with the stored byte at its address, whatever the operands: the write is seen at once,
and at no other address. -/
def Obligations.StoreIsSeenByNextFetch : Prop :=
  ∀ s : State, s.Inv →
    (∀ dst src : Operand, (Instr.store dst src).wf s.profile = true →
      ∃ t, exec (.store dst src) s = .next t ∧ t.pc = s.pc ∧
        ∀ n k, k < n → (t.bytesAt n)[k]? = some (
          if s.resolveWord dst = s.pc + BitVec.ofNat 16 k then s.resolveByte src
          else s.readMem (s.pc + BitVec.ofNat 16 k))) ∧
    (∀ src : Operand, (Instr.push src).wf s.profile = true →
      ∃ t, exec (.push src) s = .next t ∧ t.pc = s.pc ∧
        ∀ n k, k < n → (t.bytesAt n)[k]? = some (
          if s.sp - 1#16 = s.pc + BitVec.ofNat 16 k then s.resolveByte src
          else s.readMem (s.pc + BitVec.ofNat 16 k)))

/-- 46_stack.md R132: a run of up to 65,536 pushes of literal bytes and as many pops gives the bytes back in reverse
order, and SP its start value. -/
def Obligations.PushesThenPopsReverse : Prop :=
  ∀ (bs : List Byte) (dst : Reg) (s : State),
    s.Inv → dst.width = .w8 → bs.length ≤ 65536 →
    ∃ t u, execAll (bs.map fun b => .push (.imm8 b)) s = some t ∧
      t.sp = s.sp - BitVec.ofNat 16 bs.length ∧
      popMany dst bs.length t = some (bs.reverse, u) ∧ u.sp = s.sp

/-- 20_memory.md R50: any pair stored as two bytes at two different addresses and loaded back into any pair through two
`DIR` operands is the same pair, in either order of the stores; no register apart from the pair loaded changes. -/
def Obligations.PairThroughMemoryIsUnchanged : Prop :=
  ∀ (rp rq : Pair) (a b : Word) (s : State),
    s.Inv → a ≠ b →
    (∃ t, execAll [.store (.imm16 a) (.reg rp.hi), .store (.imm16 b) (.reg rp.lo),
        .load rq.hi (.dir a), .load rq.lo (.dir b)] s = some t ∧
      t.readReg rq.whole = s.readReg rp.whole ∧
      (∀ q : Reg, overlaps rq.whole q = false → t.readReg q = s.readReg q)) ∧
    (∃ t, execAll [.store (.imm16 b) (.reg rp.lo), .store (.imm16 a) (.reg rp.hi),
        .load rq.hi (.dir a), .load rq.lo (.dir b)] s = some t ∧
      t.readReg rq.whole = s.readReg rp.whole ∧
      (∀ q : Reg, overlaps rq.whole q = false → t.readReg q = s.readReg q))

/-- 30_encoding.md R86, 46_stack.md R131, R132: `PUSHW rp` and then `POPW rq` copy the pair `rp` to `rq` through the
stack: SP, every other register and `F` are as before. -/
def Obligations.PairThroughStackIsUnchanged : Prop :=
  ∀ (rp rq : Pair) (s : State),
    s.Inv →
    ∃ t u, execAll ((Pseudo.pushw rp).expand s.profile) s = some t ∧ t.sp = s.sp - 2#16 ∧
      execAll ((Pseudo.popw rq).expand s.profile) t = some u ∧
      u.readReg rq.whole = s.readReg rp.whole ∧ u.sp = s.sp ∧ u.f = s.f ∧
      (∀ q : Reg, overlaps rq.whole q = false → u.readReg q = s.readReg q)

/-- 40_alu_flags.md R102: SUB with mask C, Z followed by a flag test compares `A` with the operand as unsigned
numbers. -/
def Obligations.SubThenJumpCompares : Prop :=
  ∀ (dst : Reg) (rhs : Operand) (target : Word) (s : State),
    dst.width = .w8 → rhs.width = .w8 → wfInd rhs = true →
    ∃ t, exec (.arithSub 0x41#8 dst rhs) s = .next t ∧ t.pc = s.pc ∧
      exec (.jumpOn target .c) t = .next { t with
        pc := if s.a.toNat < (s.resolveByte rhs).toNat then target else s.pc } ∧
      exec (.jumpOn target .z) t = .next { t with
        pc := if s.a = s.resolveByte rhs then target else s.pc }
end

