-- ==== Sys2Proof/Laws/State.lean ====
section
/-! SUPPORT. What each update of the state does to each of its fields. -/

namespace Sys2Proof.Machine

@[simp] theorem State.writeMem_a (s : State) (addr : Word) (v : Byte) : (s.writeMem addr v).a = s.a := rfl
@[simp] theorem State.writeMem_f (s : State) (addr : Word) (v : Byte) : (s.writeMem addr v).f = s.f := rfl
@[simp] theorem State.writeMem_bc (s : State) (addr : Word) (v : Byte) : (s.writeMem addr v).bc = s.bc := rfl
@[simp] theorem State.writeMem_de (s : State) (addr : Word) (v : Byte) : (s.writeMem addr v).de = s.de := rfl
@[simp] theorem State.writeMem_hl (s : State) (addr : Word) (v : Byte) : (s.writeMem addr v).hl = s.hl := rfl
@[simp] theorem State.writeMem_sp (s : State) (addr : Word) (v : Byte) : (s.writeMem addr v).sp = s.sp := rfl
@[simp] theorem State.writeMem_pc (s : State) (addr : Word) (v : Byte) : (s.writeMem addr v).pc = s.pc := rfl
@[simp] theorem State.writeMem_run (s : State) (addr : Word) (v : Byte) : (s.writeMem addr v).run = s.run := rfl
@[simp] theorem State.writeMem_mem (s : State) (addr : Word) (v : Byte) : (s.writeMem addr v).mem = Memory.write s.mem addr.toNat v := rfl
@[simp] theorem State.writeMem_profile (s : State) (addr : Word) (v : Byte) : (s.writeMem addr v).profile = s.profile := rfl

@[simp] theorem State.commitFlags_a (s : State) (f mask : Byte) : (s.commitFlags f mask).a = s.a := rfl
@[simp] theorem State.commitFlags_f (s : State) (f mask : Byte) : (s.commitFlags f mask).f = flagsMerge f mask s.f := rfl
@[simp] theorem State.commitFlags_bc (s : State) (f mask : Byte) : (s.commitFlags f mask).bc = s.bc := rfl
@[simp] theorem State.commitFlags_de (s : State) (f mask : Byte) : (s.commitFlags f mask).de = s.de := rfl
@[simp] theorem State.commitFlags_hl (s : State) (f mask : Byte) : (s.commitFlags f mask).hl = s.hl := rfl
@[simp] theorem State.commitFlags_sp (s : State) (f mask : Byte) : (s.commitFlags f mask).sp = s.sp := rfl
@[simp] theorem State.commitFlags_pc (s : State) (f mask : Byte) : (s.commitFlags f mask).pc = s.pc := rfl
@[simp] theorem State.commitFlags_run (s : State) (f mask : Byte) : (s.commitFlags f mask).run = s.run := rfl
@[simp] theorem State.commitFlags_mem (s : State) (f mask : Byte) : (s.commitFlags f mask).mem = s.mem := rfl
@[simp] theorem State.commitFlags_profile (s : State) (f mask : Byte) : (s.commitFlags f mask).profile = s.profile := rfl

@[simp] theorem State.afterFetch_a (s : State) : (s.afterFetch).a = s.a := rfl
@[simp] theorem State.afterFetch_f (s : State) : (s.afterFetch).f = s.f := rfl
@[simp] theorem State.afterFetch_bc (s : State) : (s.afterFetch).bc = s.bc := rfl
@[simp] theorem State.afterFetch_de (s : State) : (s.afterFetch).de = s.de := rfl
@[simp] theorem State.afterFetch_hl (s : State) : (s.afterFetch).hl = s.hl := rfl
@[simp] theorem State.afterFetch_sp (s : State) : (s.afterFetch).sp = s.sp := rfl
@[simp] theorem State.afterFetch_pc (s : State) : (s.afterFetch).pc = s.pc + 1#16 := rfl
@[simp] theorem State.afterFetch_run (s : State) : (s.afterFetch).run = s.run := rfl
@[simp] theorem State.afterFetch_mem (s : State) : (s.afterFetch).mem = s.mem := rfl
@[simp] theorem State.afterFetch_profile (s : State) : (s.afterFetch).profile = s.profile := rfl

@[simp] theorem State.advance_a (s : State) (n : Nat) : (s.advance n).a = s.a := rfl
@[simp] theorem State.advance_f (s : State) (n : Nat) : (s.advance n).f = s.f := rfl
@[simp] theorem State.advance_bc (s : State) (n : Nat) : (s.advance n).bc = s.bc := rfl
@[simp] theorem State.advance_de (s : State) (n : Nat) : (s.advance n).de = s.de := rfl
@[simp] theorem State.advance_hl (s : State) (n : Nat) : (s.advance n).hl = s.hl := rfl
@[simp] theorem State.advance_sp (s : State) (n : Nat) : (s.advance n).sp = s.sp := rfl
@[simp] theorem State.advance_pc (s : State) (n : Nat) : (s.advance n).pc = s.pc + BitVec.ofNat 16 n := rfl
@[simp] theorem State.advance_run (s : State) (n : Nat) : (s.advance n).run = s.run := rfl
@[simp] theorem State.advance_mem (s : State) (n : Nat) : (s.advance n).mem = s.mem := rfl
@[simp] theorem State.advance_profile (s : State) (n : Nat) : (s.advance n).profile = s.profile := rfl

@[simp] theorem raiseError_a (s : State) : (raiseError s).a = s.a := rfl
@[simp] theorem raiseError_f (s : State) : (raiseError s).f = s.f := rfl
@[simp] theorem raiseError_bc (s : State) : (raiseError s).bc = s.bc := rfl
@[simp] theorem raiseError_de (s : State) : (raiseError s).de = s.de := rfl
@[simp] theorem raiseError_hl (s : State) : (raiseError s).hl = s.hl := rfl
@[simp] theorem raiseError_sp (s : State) : (raiseError s).sp = s.sp := rfl
@[simp] theorem raiseError_pc (s : State) : (raiseError s).pc = s.pc := rfl
@[simp] theorem raiseError_run (s : State) : (raiseError s).run = .error := rfl
@[simp] theorem raiseError_mem (s : State) : (raiseError s).mem = s.mem := rfl
@[simp] theorem raiseError_profile (s : State) : (raiseError s).profile = s.profile := rfl

@[simp] theorem State.resetWith_a (s : State) (d : ResetDraws) : (s.resetWith d).a = d.a := rfl
@[simp] theorem State.resetWith_f (s : State) (d : ResetDraws) : (s.resetWith d).f = d.f &&& s.profile.fmask := rfl
@[simp] theorem State.resetWith_bc (s : State) (d : ResetDraws) : (s.resetWith d).bc = d.bc := rfl
@[simp] theorem State.resetWith_de (s : State) (d : ResetDraws) : (s.resetWith d).de = d.de := rfl
@[simp] theorem State.resetWith_hl (s : State) (d : ResetDraws) : (s.resetWith d).hl = d.hl := rfl
@[simp] theorem State.resetWith_sp (s : State) (d : ResetDraws) : (s.resetWith d).sp = d.sp := rfl
@[simp] theorem State.resetWith_pc (s : State) (d : ResetDraws) : (s.resetWith d).pc = Config.resetPc := rfl
@[simp] theorem State.resetWith_run (s : State) (d : ResetDraws) : (s.resetWith d).run = .running := rfl
@[simp] theorem State.resetWith_mem (s : State) (d : ResetDraws) : (s.resetWith d).mem = s.mem := rfl
@[simp] theorem State.resetWith_profile (s : State) (d : ResetDraws) : (s.resetWith d).profile = s.profile := rfl

@[simp] theorem State.writeCell_f (s : State) (c : RegCell) (v : Word) : (s.writeCell c v).f = s.f := by
  cases c <;> rfl
@[simp] theorem State.writeCell_run (s : State) (c : RegCell) (v : Word) : (s.writeCell c v).run = s.run := by
  cases c <;> rfl
@[simp] theorem State.writeCell_mem (s : State) (c : RegCell) (v : Word) : (s.writeCell c v).mem = s.mem := by
  cases c <;> rfl
@[simp] theorem State.writeCell_profile (s : State) (c : RegCell) (v : Word) : (s.writeCell c v).profile = s.profile := by
  cases c <;> rfl

@[simp] theorem State.writeReg_f (s : State) (r : Reg) (v : Word) : (s.writeReg r v).f = s.f := by
  cases r <;> rfl
@[simp] theorem State.writeReg_run (s : State) (r : Reg) (v : Word) : (s.writeReg r v).run = s.run := by
  cases r <;> rfl
@[simp] theorem State.writeReg_mem (s : State) (r : Reg) (v : Word) : (s.writeReg r v).mem = s.mem := by
  cases r <;> rfl
@[simp] theorem State.writeReg_profile (s : State) (r : Reg) (v : Word) : (s.writeReg r v).profile = s.profile := by
  cases r <;> rfl

end Sys2Proof.Machine
end

