-- ==== Sys2Proof/Laws/Memory.lean ====
section
/-! SUPPORT. The laws of memory: a read after a write, and that every memory operation keeps the
canonical form. -/

namespace Sys2Proof.Machine

theorem Memory.read_of_lt {m : List Host.Cell} {lo addr : Nat} (h : Memory.wfFrom lo m = true)
    (ha : addr < lo) : Memory.read m addr = Config.unwrittenByte := by
  induction m generalizing lo with
  | nil => rfl
  | cons c rest ih =>
    obtain ⟨a, x⟩ := c
    simp only [Memory.wfFrom, Bool.and_eq_true, decide_eq_true_eq] at h
    rw [Memory.read, if_neg (by omega)]
    exact ih h.2 (by omega)

theorem Memory.wfFrom_mono {m : List Host.Cell} {lo lo' : Nat} (h : Memory.wfFrom lo m = true)
    (hl : lo' ≤ lo) : Memory.wfFrom lo' m = true := by
  cases m with
  | nil => rfl
  | cons c rest =>
    obtain ⟨a, x⟩ := c
    simp only [Memory.wfFrom, Bool.and_eq_true, decide_eq_true_eq] at h ⊢
    exact ⟨⟨⟨by omega, h.1.1.2⟩, h.1.2⟩, h.2⟩

theorem Memory.read_entry_self {addr lo : Nat} {v : Byte} {rest : List Host.Cell}
    (h : Memory.wfFrom lo rest = true) (hl : addr < lo) :
    Memory.read (Memory.entry addr v rest) addr = v := by
  unfold Memory.entry
  split
  · rename_i hv
    rw [hv]
    exact Memory.read_of_lt h hl
  · simp [Memory.read]

theorem Memory.read_entry_other {addr b : Nat} {v : Byte} {rest : List Host.Cell} (h : b ≠ addr) :
    Memory.read (Memory.entry addr v rest) b = Memory.read rest b := by
  unfold Memory.entry
  split
  · rfl
  · rw [Memory.read, if_neg (Ne.symm h)]

theorem Memory.wfFrom_entry {addr lo : Nat} {v : Byte} {rest : List Host.Cell}
    (h : Memory.wfFrom (addr + 1) rest = true) (hl : lo ≤ addr) (hm : addr < Config.memSize) :
    Memory.wfFrom lo (Memory.entry addr v rest) = true := by
  unfold Memory.entry
  split
  · exact Memory.wfFrom_mono h (by omega)
  · rename_i hv
    simp [Memory.wfFrom, hl, hm, hv, h]

theorem Memory.wfFrom_write {m : List Host.Cell} {lo addr : Nat} {v : Byte}
    (h : Memory.wfFrom lo m = true) (hl : lo ≤ addr) (hm : addr < Config.memSize) :
    Memory.wfFrom lo (Memory.write m addr v) = true := by
  induction m generalizing lo with
  | nil => exact Memory.wfFrom_entry rfl hl hm
  | cons c rest ih =>
    obtain ⟨a, x⟩ := c
    have h' := h
    simp only [Memory.wfFrom, Bool.and_eq_true, decide_eq_true_eq] at h'
    unfold Memory.write
    split
    · refine Memory.wfFrom_entry ?_ hl hm
      simp only [Memory.wfFrom, Bool.and_eq_true, decide_eq_true_eq]
      exact ⟨⟨⟨by omega, h'.1.1.2⟩, h'.1.2⟩, h'.2⟩
    · split
      · rename_i h2
        exact Memory.wfFrom_entry (by rw [h2]; exact h'.2) hl hm
      · simp only [Memory.wfFrom, Bool.and_eq_true, decide_eq_true_eq]
        exact ⟨⟨⟨h'.1.1.1, h'.1.1.2⟩, h'.1.2⟩, ih h'.2 (by omega)⟩

theorem Memory.read_write_self {m : List Host.Cell} {lo addr : Nat} {v : Byte}
    (h : Memory.wfFrom lo m = true) : Memory.read (Memory.write m addr v) addr = v := by
  induction m generalizing lo with
  | nil => exact Memory.read_entry_self (lo := addr + 1) rfl (by omega)
  | cons c rest ih =>
    obtain ⟨a, x⟩ := c
    have h' := h
    simp only [Memory.wfFrom, Bool.and_eq_true, decide_eq_true_eq] at h'
    unfold Memory.write
    split
    · rename_i h1
      refine Memory.read_entry_self (lo := a) ?_ h1
      simp only [Memory.wfFrom, Bool.and_eq_true, decide_eq_true_eq]
      exact ⟨⟨⟨le_refl _, h'.1.1.2⟩, h'.1.2⟩, h'.2⟩
    · split
      · rename_i h2
        exact Memory.read_entry_self h'.2 (by omega)
      · rename_i h2
        rw [Memory.read, if_neg (Ne.symm h2)]
        exact ih h'.2

theorem Memory.read_write_other {m : List Host.Cell} {addr b : Nat} {v : Byte} (h : b ≠ addr) :
    Memory.read (Memory.write m addr v) b = Memory.read m b := by
  induction m with
  | nil => exact Memory.read_entry_other h
  | cons c rest ih =>
    obtain ⟨a, x⟩ := c
    unfold Memory.write
    split
    · exact Memory.read_entry_other h
    · split
      · rename_i h2
        rw [Memory.read_entry_other h, Memory.read, if_neg (by omega)]
      · simp only [Memory.read, ih]

/-- What a byte reads as after a store, in a memory in its canonical form. -/
theorem State.readMem_writeMem {s : State} (h : Memory.wf s.mem = true) (addr b : Word) (v : Byte) :
    (s.writeMem addr v).readMem b = if b = addr then v else s.readMem b := by
  unfold State.readMem
  rw [State.writeMem_mem]
  split
  · rename_i hb
    rw [hb]
    exact Memory.read_write_self h
  · rename_i hb
    exact Memory.read_write_other fun he => hb (BitVec.eq_of_toNat_eq he)

/-- A store keeps the canonical form. -/
theorem State.writeMem_wf {s : State} (h : Memory.wf s.mem = true) (addr : Word) (v : Byte) :
    Memory.wf (s.writeMem addr v).mem = true :=
  Memory.wfFrom_write h (Nat.zero_le _) addr.isLt

/-- The loader keeps the canonical form. -/
theorem State.loadBytes_wf {s : State} (h : Memory.wf s.mem = true) (addr : Word)
    (bs : List Byte) : Memory.wf (s.loadBytes addr bs).mem = true := by
  induction bs generalizing s addr with
  | nil => exact h
  | cons b rest ih => exact ih (State.writeMem_wf h addr b) _

/-- The memory of the reset state is in its canonical form. -/
theorem State.reset_wf : Memory.wf State.reset.mem = true := rfl

end Sys2Proof.Machine
end

