-- ==== Sys2Proof/Laws/Registers.lean ====
section
/-! SUPPORT. The laws of byte views and of the register multiplexer. -/

namespace Sys2Proof.Machine

@[simp] theorem loByte_zextByte (v : Byte) : loByte (zextByte v) = v := by
  unfold loByte zextByte
  ext i hi
  simp [BitVec.getElem_extractLsb', BitVec.getLsbD_eq_getElem hi, show i < 16 by omega]

/-- A word is its two bytes. -/
theorem ofHiLo_hiByte_loByte (v : Word) : ofHiLo (hiByte v) (loByte v) = v := by
  unfold ofHiLo hiByte loByte
  ext i hi
  rw [BitVec.getElem_append]
  split
  · simp [BitVec.getElem_extractLsb', BitVec.getLsbD_eq_getElem hi]
  · simp [BitVec.getElem_extractLsb', show 8 + (i - 8) = i by omega, BitVec.getLsbD_eq_getElem hi]

theorem viewRead_viewWrite (cell : Word) (h k : Half) (v : Byte) :
    viewRead (viewWrite cell h v) k = if k = h then v else viewRead cell k := by
  have lo : ∀ i (hi : i < 16), (0x00FF#16)[i] = decide (i < 8) := by decide
  have up : ∀ i (hi : i < 16), (0xFF00#16)[i] = decide (8 ≤ i) := by decide
  cases h <;> cases k <;> ext i hi <;>
    simp [viewRead, viewWrite, hiByte, loByte, zextByte, BitVec.getElem_extractLsb', hi, lo, up,
      show i < 16 by omega, show 8 + i < 16 by omega, BitVec.getLsbD_eq_getElem]

theorem State.readCell_writeCell (s : State) (c d : RegCell) (v : Word) :
    (s.writeCell c v).readCell d =
      if d = c then (if c = .a then zextByte (loByte v) else v) else s.readCell d := by
  cases c <;> cases d <;> rfl

/-- A register reads back what was written to it, at its width. -/
theorem State.readReg_writeReg_self (s : State) (r : Reg) (v : Word) :
    (s.writeReg r v).readReg r = if r.width = .w8 then zextByte (loByte v) else v := by
  cases r <;>
    simp [State.readReg, State.writeReg, selectorOf, cellOf, State.readCell_writeCell,
      viewRead_viewWrite, Reg.width]

/-- A register that shares no storage with the one written keeps its value. -/
theorem State.readReg_writeReg_other (s : State) (r q : Reg) (v : Word)
    (h : overlaps r q = false) : (s.writeReg r v).readReg q = s.readReg q := by
  cases r <;> cases q <;> revert h <;>
    simp [State.readReg, State.writeReg, selectorOf, cellOf, State.readCell_writeCell,
      viewRead_viewWrite, overlaps]

/-- An 8-bit code reads as a zero-extended byte. -/
theorem State.readReg_of_w8 (s : State) {r : Reg} (h : r.width = .w8) :
    s.readReg r = zextByte (loByte (s.readReg r)) := by
  cases r <;> revert h <;> simp [State.readReg, selectorOf, cellOf, State.readCell, Reg.width]

/-- A memory write changes no register. -/
@[simp] theorem State.readReg_writeMem (s : State) (addr : Word) (v : Byte) (r : Reg) :
    (s.writeMem addr v).readReg r = s.readReg r := by
  cases r <;> rfl

/-- A register write changes no byte of memory. -/
@[simp] theorem State.readMem_writeReg (s : State) (r : Reg) (v addr : Word) :
    (s.writeReg r v).readMem addr = s.readMem addr := by
  cases r <;> rfl

end Sys2Proof.Machine
end

