-- ==== Sys2Proof/Laws/Ops.lean ====
section
/-! SUPPORT. What the shared operations can do: the commit, the error entry, and `exec` in terms of the
write set of an instruction. -/

namespace Sys2Proof.Machine

/-! ## The commit, field by field -/

@[simp] theorem commit_noWrite (s : State) : commit noWrite s = s := rfl

@[simp] theorem applyWrite_none {α : Type} (f : State → α → State) (s : State) :
    applyWrite none f s = s := rfl

@[simp] theorem applyWrite_some {α : Type} (v : α) (f : State → α → State) (s : State) :
    applyWrite (some v) f s = f s v := rfl

/-- A field that a write leaves alone is left alone by the absent write too. -/
theorem applyWrite_field {α β : Type} (g : State → β) (w : Option α) (f : State → α → State)
    (s : State) (h : ∀ v, g (f s v) = g s) : g (applyWrite w f s) = g s := by
  cases w with
  | none => rfl
  | some v => exact h v

theorem commit_profile (w : WriteSet) (s : State) : (commit w s).profile = s.profile := by
  obtain ⟨reg, flags, mem, sp, pc, run⟩ := w
  cases reg <;> cases flags <;> cases mem <;> cases sp <;> cases pc <;> cases run <;> simp [commit]

theorem commit_mem (w : WriteSet) (s : State) :
    (commit w s).mem =
      match w.mem with
      | some x => Memory.write s.mem x.1.toNat x.2
      | none => s.mem := by
  obtain ⟨reg, flags, mem, sp, pc, run⟩ := w
  cases reg <;> cases flags <;> cases mem <;> cases sp <;> cases pc <;> cases run <;> simp [commit]

theorem commit_f (w : WriteSet) (s : State) :
    (commit w s).f =
      match w.flags with
      | some x => flagsMerge x.1 x.2 s.f
      | none => s.f := by
  obtain ⟨reg, flags, mem, sp, pc, run⟩ := w
  cases reg <;> cases flags <;> cases mem <;> cases sp <;> cases pc <;> cases run <;> simp [commit]

theorem commit_run (w : WriteSet) (s : State) :
    (commit w s).run =
      match w.run with
      | some r => r
      | none => s.run := by
  obtain ⟨reg, flags, mem, sp, pc, run⟩ := w
  cases reg <;> cases flags <;> cases mem <;> cases sp <;> cases pc <;> cases run <;> simp [commit]

/-! ## `exec` -/

/-- Every instruction is performed with the write set that its rule gives. -/
theorem exec_eq (i : Instr) (s : State) : exec i s = perform i (writesOf i s) s := by
  cases i <;> rfl

theorem exec_of_wf {i : Instr} {s : State} (h : i.wf s.profile = true) :
    exec i s = .next (commit (writesOf i s) s) := by
  rw [exec_eq, perform, if_pos h]

theorem exec_of_not_wf {i : Instr} {s : State} (h : i.wf s.profile = false) :
    exec i s = .next (raiseError s) := by
  rw [exec_eq, perform, if_neg (by simp [h])]

/-- All that `exec` can do: commit the write set of a well-formed term, or go to `Error` at an ill-formed
one. -/
theorem exec_cases {i : Instr} {s t : State} (h : exec i s = .next t) :
    (i.wf s.profile = true ∧ t = commit (writesOf i s) s) ∨
      (i.wf s.profile = false ∧ t = raiseError s) := by
  cases hw : i.wf s.profile with
  | true => rw [exec_of_wf hw] at h; cases h; exact .inl ⟨rfl, rfl⟩
  | false => rw [exec_of_not_wf hw] at h; cases h; exact .inr ⟨rfl, rfl⟩

/-- The write set of an instruction is that of the instruction inside its guards where they all hold, and
empty otherwise. -/
theorem writesOf_eq (i : Instr) (s : State) :
    writesOf i s = if guardsHold s i then writesOf (innermost i) s else noWrite := by
  induction i with
  | cond q inner ih =>
    simp only [writesOf, guardsHold, innermost, Bool.and_eq_true, ih]
    split <;> simp_all
  | _ => rfl

/-- An instruction inside well-formed guards is well-formed. -/
theorem innermost_wf {i : Instr} {p : FlagProfile} (h : i.wf p = true) :
    (innermost i).wf p = true := by
  induction i with
  | cond q inner ih =>
    simp only [Instr.wf, Bool.and_eq_true] at h
    exact ih h.2
  | _ => exact h

/-- The checks of R84 fail in a term exactly where one of them fails by name. -/
theorem failedChecks_eq_nil (p : FlagProfile) (i : Instr) :
    i.failedChecks p = [] ↔ i.wf p = true := by
  cases i <;> simp [Instr.failedChecks, Instr.wf, WfCheck.unless, and_assoc]

end Sys2Proof.Machine
end

