-- ==== Sys2Proof/Laws/Cycle.lean ====
section
/-! SUPPORT. What the fetch loop of a cycle can do, said once. -/

namespace Sys2Proof.Machine

theorem State.advance_zero (s : State) : s.advance 0 = s := by
  simp [State.advance]

theorem State.advance_afterFetch (s : State) (n : Nat) :
    s.afterFetch.advance n = s.advance (n + 1) := by
  simp only [State.advance, State.afterFetch, BitVec.ofNat_add, BitVec.add_assoc,
    BitVec.add_comm (1#16)]

theorem State.bytesAt_length (s : State) (n : Nat) : (s.bytesAt n).length = n := by
  simp [State.bytesAt]

/-- The first byte at PC is the one fetched, the others are those at the PC after that fetch. -/
theorem State.bytesAt_succ (s : State) (n : Nat) :
    s.bytesAt (n + 1) = s.fetchByte :: s.afterFetch.bytesAt n := by
  simp only [State.bytesAt, List.range_succ_eq_map, List.map_cons, List.map_map, State.fetchByte,
    BitVec.add_zero, List.cons.injEq]
  refine ⟨by simp, List.map_congr_left fun k _ => ?_⟩
  simp only [Function.comp, State.readMem, State.afterFetch, Nat.succ_eq_add_one,
    BitVec.ofNat_add, BitVec.add_assoc, BitVec.add_comm (1#16)]

/-- The fetch loop stops after `n` bytes when the decoder wants more after each shorter list. -/
theorem fetchLoop_of_answer (dec : Decoder) (n : Nat) : ∀ (fuel : Nat) (bs : List Byte) (s : State),
    n + 1 ≤ fuel → (∀ k, 0 < k → k ≤ n → dec (bs ++ s.bytesAt k) = .needMore) →
    (∀ i, dec (bs ++ s.bytesAt (n + 1)) = .instr i →
      fetchLoop dec fuel bs s = ⟨s.advance (n + 1), bs ++ s.bytesAt (n + 1), .ok i⟩) ∧
    (∀ e, dec (bs ++ s.bytesAt (n + 1)) = .invalid e →
      fetchLoop dec fuel bs s = ⟨s.advance (n + 1), bs ++ s.bytesAt (n + 1), .error e⟩) := by
  induction n with
  | zero =>
    intro fuel bs s hf hk
    obtain ⟨fuel, rfl⟩ : ∃ m, fuel = m + 1 := ⟨fuel - 1, by omega⟩
    have h1 : s.bytesAt 1 = [s.fetchByte] := by rw [State.bytesAt_succ]; rfl
    have h2 : s.advance 1 = s.afterFetch := by
      rw [← State.advance_afterFetch, State.advance_zero]
    rw [h1, h2]
    constructor <;> intro i hi <;> simp [fetchLoop, hi]
  | succ n ih =>
    intro fuel bs s hf hk
    obtain ⟨fuel, rfl⟩ : ∃ m, fuel = m + 1 := ⟨fuel - 1, by omega⟩
    have h1 : dec (bs ++ [s.fetchByte]) = .needMore := by
      have := hk 1 (by omega) (by omega)
      rwa [State.bytesAt_succ, show s.afterFetch.bytesAt 0 = [] from rfl] at this
    have happ (k : Nat) : bs ++ [s.fetchByte] ++ s.afterFetch.bytesAt k = bs ++ s.bytesAt (k + 1) := by
      rw [State.bytesAt_succ, List.append_assoc]; rfl
    have := ih fuel (bs ++ [s.fetchByte]) s.afterFetch (by omega) (by
      intro k hk0 hkn
      rw [happ]
      exact hk (k + 1) (by omega) (by omega))
    rw [happ, State.advance_afterFetch] at this
    constructor <;> intro i hi
    · simpa only [fetchLoop, h1] using this.1 i hi
    · simpa only [fetchLoop, h1] using this.2 i hi

/-- The fetch loop gives up where the decoder wants more after every list. -/
theorem fetchLoop_of_needMore (dec : Decoder) : ∀ (fuel : Nat) (bs : List Byte) (s : State),
    (∀ k, 0 < k → k ≤ fuel → dec (bs ++ s.bytesAt k) = .needMore) →
    fetchLoop dec fuel bs s = ⟨s.advance fuel, bs ++ s.bytesAt fuel, .error .tooLong⟩ := by
  intro fuel
  induction fuel with
  | zero =>
    intro bs s _
    simp [fetchLoop, State.advance_zero, State.bytesAt]
  | succ n ih =>
    intro bs s hk
    have h1 : dec (bs ++ [s.fetchByte]) = .needMore := by
      have := hk 1 (by omega) (by omega)
      rwa [State.bytesAt_succ, show s.afterFetch.bytesAt 0 = [] from rfl] at this
    have happ (k : Nat) : bs ++ [s.fetchByte] ++ s.afterFetch.bytesAt k = bs ++ s.bytesAt (k + 1) := by
      rw [State.bytesAt_succ, List.append_assoc]; rfl
    have := ih (bs ++ [s.fetchByte]) s.afterFetch (by
      intro k hk0 hkn
      rw [happ]
      exact hk (k + 1) (by omega) (by omega))
    rw [happ, State.advance_afterFetch] at this
    simpa only [fetchLoop, h1] using this

/-- All that the fetch loop can do: it fetches between 1 and `fuel` bytes, the decoder wanting more after
each shorter list, and ends with the decoder's answer or, at the last byte, without one. -/
theorem fetchLoop_cases (dec : Decoder) : ∀ (fuel : Nat) (bs : List Byte) (s : State), 0 < fuel →
    ∃ n, 0 < n ∧ n ≤ fuel ∧ (∀ k, 0 < k → k < n → dec (bs ++ s.bytesAt k) = .needMore) ∧
      (fetchLoop dec fuel bs s).state = s.advance n ∧
      (fetchLoop dec fuel bs s).bytes = bs ++ s.bytesAt n ∧
      ((∃ i, (fetchLoop dec fuel bs s).verdict = .ok i ∧ dec (bs ++ s.bytesAt n) = .instr i) ∨
        (∃ e, (fetchLoop dec fuel bs s).verdict = .error e ∧
          (dec (bs ++ s.bytesAt n) = .invalid e ∨
            (n = fuel ∧ dec (bs ++ s.bytesAt n) = .needMore)))) := by
  intro fuel bs s hf
  by_cases hall : ∀ k, 0 < k → k ≤ fuel → dec (bs ++ s.bytesAt k) = .needMore
  · refine ⟨fuel, hf, le_refl _, fun k h0 hk => hall k h0 (by omega), ?_⟩
    rw [fetchLoop_of_needMore dec fuel bs s hall]
    exact ⟨rfl, rfl, .inr ⟨_, rfl, .inr ⟨rfl, hall fuel hf (le_refl _)⟩⟩⟩
  · have hex : ∃ k, 0 < k ∧ k ≤ fuel ∧ dec (bs ++ s.bytesAt k) ≠ .needMore := by
      by_contra hne
      exact hall fun k h0 hk => by_contra fun hd => hne ⟨k, h0, hk, hd⟩
    classical
    obtain ⟨h0, hk, hd⟩ := Nat.find_spec hex
    have hmin : ∀ k, 0 < k → k < Nat.find hex → dec (bs ++ s.bytesAt k) = .needMore := by
      intro k hk0 hkn
      by_contra hne
      exact Nat.find_min hex hkn ⟨hk0, by omega, hne⟩
    obtain ⟨m, hm⟩ : ∃ m, Nat.find hex = m + 1 := ⟨Nat.find hex - 1, by omega⟩
    rw [hm] at h0 hk hd hmin
    have hans := fetchLoop_of_answer dec m fuel bs s hk fun k hk0 hkm => hmin k hk0 (by omega)
    refine ⟨m + 1, h0, hk, hmin, ?_⟩
    cases hdec : dec (bs ++ s.bytesAt (m + 1)) with
    | instr i => rw [hans.1 i hdec]; exact ⟨rfl, rfl, .inl ⟨i, rfl, rfl⟩⟩
    | needMore => exact absurd hdec hd
    | invalid e => rw [hans.2 e hdec]; exact ⟨rfl, rfl, .inr ⟨e, rfl, .inl rfl⟩⟩

end Sys2Proof.Machine
end

