-- ==== Sys2Proof/Laws/Decode.lean ====
section
/-! SUPPORT. The field encodings read back, and what the operand parser does with an encoded operand. -/

namespace Sys2Proof

theorem Reg.ofCode?_code (r : Reg) : Reg.ofCode? r.code = some r := by
  cases r <;> rfl

theorem Ctl.ofCode?_code (c : Ctl) : Ctl.ofCode? c.code = some c := by
  cases c <;> rfl

theorem Reg.code_of_ofCode? {c : BitVec 4} {r : Reg} (h : Reg.ofCode? c = some r) : r.code = c := by
  revert c r
  decide

/-- The bytes of a 16-bit literal read back. -/
theorem parseWord_bytes (v : Word) (rest : List Byte) :
    parseWord (loByte v :: hiByte v :: rest) = .done v rest := by
  have h : ofHiLo (hiByte v) (loByte v) = v := by
    unfold ofHiLo hiByte loByte
    ext i hi
    rw [BitVec.getElem_append]
    split
    · simp [BitVec.getElem_extractLsb', BitVec.getLsbD_eq_getElem hi]
    · simp [BitVec.getElem_extractLsb', show 8 + (i - 8) = i by omega,
        BitVec.getLsbD_eq_getElem hi]
  rw [parseWord, h]

theorem operandForm_reg (r : Reg) : operandForm (withReg 0x40#8 r) = .ok (.reg r) := by
  cases r <;> rfl

theorem operandForm_ind (r : Reg) : operandForm (withReg 0xC0#8 r) = .ok (.ind r) := by
  cases r <;> rfl

/-- An encoded operand reads back, whatever bytes follow it. -/
theorem parseOperand_encodeOperand (op : Operand) (rest : List Byte) :
    parseOperand (encodeOperand op ++ rest) = .done op rest := by
  cases op with
  | imm8 n => rfl
  | imm16 n =>
    change (parseWord (loByte n :: hiByte n :: rest)).map Operand.imm16 = _
    rw [parseWord_bytes]; rfl
  | reg r =>
    simp only [encodeOperand, List.cons_append, List.nil_append, parseOperand, operandForm_reg]
  | dir a =>
    change (parseWord (loByte a :: hiByte a :: rest)).map Operand.dir = _
    rw [parseWord_bytes]; rfl
  | ind r =>
    simp only [encodeOperand, List.cons_append, List.nil_append, parseOperand, operandForm_ind]

/-- The length of an encoded operand (30_encoding.md R78). -/
theorem encodeOperand_length (op : Operand) : (encodeOperand op).length = op.descLength := by
  cases op <;> rfl

theorem opcodeOf?_load (r : Reg) : opcodeOf? (withReg 0x10#8 r) = some .load := by
  cases r <;> decide

theorem opcodeOf?_pop (r : Reg) : opcodeOf? (withReg 0x70#8 r) = some .pop := by
  cases r <;> decide

theorem opcodeOf?_jumpOn (g : Flag) :
    opcodeOf? (0x50#8 ||| BitVec.ofNat 8 g.pos) = some .jumpOn := by
  cases g <;> decide

theorem opcodeOf?_cond {q : Pred} {tag : Byte} (h : encodePred q = some tag) :
    opcodeOf? tag = some .cond := by
  cases q with
  | fset g => cases h; cases g <;> decide
  | fclr g => cases h; cases g <;> decide
  | ext k => cases h

/-- No tag byte belongs to two rows of the opcode map (30_encoding.md R77). -/
theorem opcodeTable_disjoint :
    opcodeTable.Pairwise fun x y => x.fixed &&& y.mask ≠ y.fixed &&& x.mask := by
  decide

end Sys2Proof
end

