-- ==== Sys2Proof/Laws/PerInstr.lean ====
section
/-! SUPPORT. For every instruction: its descriptor begins with a tag of its own row of the opcode map and
has the length of 30_encoding.md R78. -/

namespace Sys2Proof.Laws.DescriptorShape

/-- The descriptor's tag is one of the instruction's own row (30_encoding.md R77), and its length is as
R78 gives it. -/
def Statement (i : Instr) : Prop :=
  ∀ bs, encode i = some bs →
    (∃ tag rest, bs = tag :: rest ∧ opcodeOf? tag = some i.opcode) ∧ bs.length = i.descLength

theorem nop : Statement .nop := by
  rintro bs ⟨⟩
  exact ⟨⟨_, _, rfl, by decide⟩, rfl⟩

theorem load (dst : Reg) (src : Operand) : Statement (.load dst src) := by
  rintro bs ⟨⟩
  exact ⟨⟨_, _, rfl, opcodeOf?_load dst⟩,
    by simp [encodeOperand_length, Instr.descLength, Nat.add_comm]⟩

theorem store (dst src : Operand) : Statement (.store dst src) := by
  rintro bs ⟨⟩
  exact ⟨⟨_, _, rfl, (by decide : opcodeOf? 0x20#8 = some .store)⟩, by simp [encodeOperand_length, Instr.descLength]; omega⟩

theorem arithAdd (mask : Byte) (dst : Reg) (rhs : Operand) : Statement (.arithAdd mask dst rhs) := by
  rintro bs ⟨⟩
  exact ⟨⟨_, _, rfl, (by decide : opcodeOf? 0x30#8 = some .arithAdd)⟩, by simp [encodeOperand_length, Instr.descLength]; omega⟩

theorem arithSub (mask : Byte) (dst : Reg) (rhs : Operand) : Statement (.arithSub mask dst rhs) := by
  rintro bs ⟨⟩
  exact ⟨⟨_, _, rfl, (by decide : opcodeOf? 0x31#8 = some .arithSub)⟩, by simp [encodeOperand_length, Instr.descLength]; omega⟩

theorem jump (target : Word) : Statement (.jump target) := by
  rintro bs ⟨⟩
  exact ⟨⟨_, _, rfl, (by decide : opcodeOf? 0x40#8 = some .jump)⟩, rfl⟩

theorem jumpOn (target : Word) (flag : Flag) : Statement (.jumpOn target flag) := by
  rintro bs ⟨⟩
  exact ⟨⟨_, _, rfl, opcodeOf?_jumpOn flag⟩, rfl⟩

theorem push (src : Operand) : Statement (.push src) := by
  rintro bs ⟨⟩
  exact ⟨⟨_, _, rfl, (by decide : opcodeOf? 0x60#8 = some .push)⟩,
    by simp [encodeOperand_length, Instr.descLength, Nat.add_comm]⟩

theorem pop (dst : Reg) : Statement (.pop dst) := by
  rintro bs ⟨⟩
  exact ⟨⟨_, _, rfl, opcodeOf?_pop dst⟩, rfl⟩

theorem halt : Statement .halt := by
  rintro bs ⟨⟩
  exact ⟨⟨_, _, rfl, by decide⟩, rfl⟩

/-- A guard adds one byte, with a tag of the `COND` row, to what it guards. -/
theorem cond_of_inner (pred : Pred) {inner : Instr} (ih : Statement inner) :
    Statement (.cond pred inner) := by
  intro bs h
  simp only [encode] at h
  cases hp : encodePred pred with
  | none => simp [hp] at h
  | some tag =>
    cases hb : encode inner with
    | none => simp [hp, hb] at h
    | some bytes =>
      simp only [hp, hb, Option.some.injEq] at h
      subst h
      refine ⟨⟨_, _, rfl, opcodeOf?_cond hp⟩, ?_⟩
      rw [List.length_cons, (ih bytes hb).2, Instr.descLength, Nat.add_comm]

theorem every (i : Instr) : Statement i := by
  induction i with
  | nop => exact nop
  | load dst src => exact load dst src
  | store dst src => exact store dst src
  | arithAdd mask dst rhs => exact arithAdd mask dst rhs
  | arithSub mask dst rhs => exact arithSub mask dst rhs
  | jump target => exact jump target
  | jumpOn target flag => exact jumpOn target flag
  | push src => exact push src
  | pop dst => exact pop dst
  | cond pred inner ih => exact cond_of_inner pred ih
  | halt => exact halt

theorem cond (pred : Pred) (inner : Instr) : Statement (.cond pred inner) :=
  cond_of_inner pred (every inner)

end Sys2Proof.Laws.DescriptorShape
end

