-- ==== Sys2Proof/Tests/Slice0.lean ====
section
/-! SUPPORT. Tests: expected values are those of spec/95_test_vectors.md (the vector's name stands with each), words
are written out from 30_encoding.md R75 and R77; and for each statement with hypotheses a witness that meets them. -/

namespace Sys2Proof.Tests

open Sys2Proof.Machine

/-- The reset state with `PC` at an address and bytes there. -/
def codeAt (pc : Word) (bytes : List Byte) : State :=
  { State.reset with pc := pc }.loadBytes pc bytes

/-- The state after one step; the state itself where there is none. -/
def after (s : State) : State :=
  match step s with
  | .next t => t
  | .fault _ => s
  | .refused _ => s

/-! ## Well-formedness: a term that each check refuses (30_encoding.md R84) -/

/-- `WF-REG` is a matter of the type `Reg`: the reserved codes name no register. -/
theorem test_wf_reg :
    Reg.ofCode? 0x6#4 = none ∧ Reg.ofCode? 0xD#4 = none ∧ Reg.ofCode? 0xF#4 = none := by decide

/-- `WF-ARITH-CTL` is a matter of the type `Ctl`. -/
theorem test_wf_arith_ctl : Ctl.ofCode? 0x2#4 = none ∧ Ctl.ofCode? 0xF#4 = none := by decide

theorem test_wf_load : (Instr.load .a (.imm16 5#16)).failedChecks .generic = [.load] := by decide

theorem test_wf_store_dst :
    (Instr.store (.dir 0x4000#16) (.reg .a)).failedChecks .generic = [.storeDst] := by decide

theorem test_wf_store_src :
    (Instr.store (.imm16 0x4000#16) (.reg .bc)).failedChecks .generic = [.storeSrc] := by decide

theorem test_wf_arith_dst :
    (Instr.arithAdd 0x00#8 .bc (.reg .a)).failedChecks .generic = [.arithDst] ∧
    (Instr.arithSub 0x00#8 .sp (.reg .a)).failedChecks .generic = [.arithDst] := by decide

theorem test_wf_arith_rhs :
    (Instr.arithAdd 0x00#8 .a (.reg .hl)).failedChecks .generic = [.arithRhs] ∧
    (Instr.arithSub 0x00#8 .a (.imm16 0#16)).failedChecks .generic = [.arithRhs] := by decide

theorem test_wf_mask :
    (Instr.arithAdd 0x02#8 .a (.reg .b)).failedChecks .generic = [.mask] ∧
    (Instr.arithSub 0x04#8 .a (.reg .b)).failedChecks .generic = [.mask] ∧
    (Instr.arithSub 0x04#8 .a (.reg .b)).wf .i8080 = true := by decide

theorem test_wf_flag :
    (Instr.jumpOn 0#16 .p).failedChecks .generic = [.flag] ∧
    (Instr.cond (.fset .ac) .nop).failedChecks .generic = [.flag] ∧
    (Instr.jumpOn 0#16 .p).wf .i8080 = true := by decide

theorem test_wf_push : (Instr.push (.reg .bc)).failedChecks .generic = [.push] := by decide

theorem test_wf_pop : (Instr.pop .bc).failedChecks .generic = [.pop] := by decide

theorem test_wf_ind : (Instr.load .a (.ind .a)).failedChecks .generic = [.ind] := by decide

theorem test_wf_cond :
    (Instr.cond (.fclr .z) (.load .a (.imm16 5#16))).failedChecks .generic = [.cond] := by decide

/-! ## Decoding: words written out from the encoding tables -/

theorem test_decode_nop : descDecode .generic [0x00#8] = .instr .nop := by decide

/-- V-LD4. -/
theorem test_decode_load :
    descDecode .generic [0x17#8, 0x80#8, 0x41#8, 0x31#8] = .instr (.load .a (.dir 0x3141#16)) := by
  decide

/-- V-ST4. -/
theorem test_decode_store :
    descDecode .generic [0x20#8, 0x20#8, 0x00#8, 0x20#8, 0x80#8, 0x00#8, 0x30#8] =
      .instr (.store (.imm16 0x2000#16) (.dir 0x3000#16)) := by decide

/-- V-AR6. -/
theorem test_decode_arith_add :
    descDecode .generic [0x30#8, 0x41#8, 0x04#8, 0x45#8] =
      .instr (.arithAdd 0x41#8 .h (.reg .l)) := by decide

/-- V-AR7. -/
theorem test_decode_arith_sub :
    descDecode .generic [0x31#8, 0xC1#8, 0x07#8, 0xCA#8] =
      .instr (.arithSub 0xC1#8 .a (.ind .hl)) := by decide

/-- R129's example: `JMP 31`. -/
theorem test_decode_jump :
    descDecode .generic [0x40#8, 0x1F#8, 0x00#8] = .instr (.jump 31#16) := by decide

/-- V-JP5, and V-DEC12 under `I8080`. -/
theorem test_decode_jump_on :
    descDecode .generic [0x57#8, 0x00#8, 0x02#8] = .instr (.jumpOn 0x0200#16 .s) ∧
    descDecode .i8080 [0x52#8, 0x00#8, 0x00#8] = .instr (.jumpOn 0x0000#16 .p) := by decide

/-- V-SK3. -/
theorem test_decode_push : descDecode .generic [0x60#8, 0xCB#8] = .instr (.push (.ind .sp)) := by
  decide

/-- V-SK5. -/
theorem test_decode_pop : descDecode .generic [0x75#8] = .instr (.pop .l) := by decide

/-- V-CD4. -/
theorem test_decode_cond :
    descDecode .generic [0x88#8, 0x86#8, 0x40#8, 0x00#8, 0x03#8] =
      .instr (.cond (.fset .c) (.cond (.fclr .z) (.jump 0x0300#16))) := by decide

theorem test_decode_halt : descDecode .generic [0xF0#8] = .instr .halt := by decide

/-- V-DEC2: the shorter prefixes want more. -/
theorem test_decode_prefixes :
    descDecode .generic [0x17#8] = .needMore ∧ descDecode .generic [0x17#8, 0x00#8] = .needMore ∧
    descDecode .generic [0x17#8, 0x00#8, 0x0A#8] = .instr (.load .a (.imm8 10#8)) := by decide

/-- V-DEC3, V-DEC4, V-DEC5, V-DEC10, V-DEC12, V-DEC13: structural errors. -/
theorem test_decode_invalid :
    descDecode .generic [0x32#8] = .invalid .reservedTag ∧
    descDecode .generic [0x16#8] = .invalid .reservedRegister ∧
    descDecode .generic [0x17#8, 0x10#8] = .invalid .reservedOperandByte ∧
    descDecode .generic [0x30#8, 0xC1#8, 0x17#8] = .invalid .arithDstByte ∧
    descDecode .generic [0x52#8] = .invalid .reservedFlag ∧
    descDecode .generic [0x58#8] = .invalid .reservedTag := by decide

/-- V-DEC7, V-DEC9, V-DEC11, V-DEC14, V-DEC15, V-DEC16, V-DEC19: complete, but ill-formed. -/
theorem test_decode_ill_formed :
    descDecode .generic [0x20#8, 0x00#8, 0x05#8, 0x47#8] = .invalid (.illFormed [.storeDst]) ∧
    descDecode .generic [0x30#8, 0x02#8, 0x07#8, 0x40#8] = .invalid (.illFormed [.mask]) ∧
    descDecode .generic [0x30#8, 0xC1#8, 0x08#8, 0x40#8] = .invalid (.illFormed [.arithDst]) ∧
    descDecode .generic [0x60#8, 0x48#8] = .invalid (.illFormed [.push]) ∧
    descDecode .generic [0x78#8] = .invalid (.illFormed [.pop]) ∧
    descDecode .generic [0x17#8, 0xC7#8] = .invalid (.illFormed [.ind]) ∧
    descDecode .generic [0x86#8, 0x17#8, 0x20#8, 0x05#8, 0x00#8] =
      .invalid (.illFormed [.cond]) := by decide

/-- R79's structural errors in a STORE's second operand and inside a COND. -/
theorem test_decode_invalid_later :
    descDecode .generic [0x20#8, 0x4A#8, 0x50#8] = .invalid .reservedOperandByte ∧
    descDecode .generic [0x86#8, 0x32#8] = .invalid .reservedTag ∧
    descDecode .generic [0x86#8, 0x88#8, 0x60#8, 0x46#8] = .invalid .reservedRegister := by decide

/-- V-DEC17, V-DEC18: the bound of 16 bytes. -/
theorem test_decode_bound :
    descDecode .generic (List.replicate 15 0x86#8) = .needMore ∧
    (descDecode .generic (List.replicate 15 0x86#8 ++ [0x00#8])) =
      .instr ((Nat.repeat (Instr.cond (.fclr .z)) 15) .nop) ∧
    descDecode .generic (List.replicate 16 0x86#8) = .invalid .tooLong := by decide

/-- The numbering of opcode_table.json: the first byte least significant. -/
theorem test_decode_table_word :
    decodeTableWord 8 0xF0 = some .halt ∧
    decodeTableWord 24 0x01FF40 = some (.jump 0x01FF#16) ∧
    decodeTableWord 8 0x20 = none := by decide

/-- R86: `JNZ a` is `IFN Z, JMP a`; `PUSHW HL` is `PUSH H`, `PUSH L`. -/
theorem test_pseudo :
    (Pseudo.jnz 0x0006#16).expand .generic = [.cond (.fclr .z) (.jump 0x0006#16)] ∧
    (Pseudo.pushw .hl).expand .generic = [.push (.reg .h), .push (.reg .l)] ∧
    (Pseudo.adda (.reg .b)).expand .i8080 = [.arithAdd 0xD5#8 .a (.reg .b)] := by decide

/-- A word of opcode_table.json placed by `withFetchWord` runs as the first instruction after reset. -/
theorem test_fetch_word :
    (after (State.reset.withFetchWord 24 0x01FF40)).pc = 0x01FF#16 ∧
    (after (State.reset.withFetchWord 8 0xF0)).run = .halted := by decide

/-! ## The ALU and the flags -/

/-- S2.1-S2.6. -/
theorem test_alu_fixtures :
    aluAdd .generic 220#8 50#8 = ⟨14#8, 0x01#8⟩ ∧
    aluAdd .generic 120#8 50#8 = ⟨170#8, 0x80#8⟩ ∧
    aluSub .generic .noHalfBorrow 20#8 50#8 = ⟨226#8, 0x81#8⟩ ∧
    aluAdd .generic 20#8 50#8 = ⟨70#8, 0x00#8⟩ ∧
    aluSub .generic .noHalfBorrow 120#8 50#8 = ⟨70#8, 0x00#8⟩ ∧
    aluSub .generic .noHalfBorrow 220#8 50#8 = ⟨170#8, 0x80#8⟩ := by decide

/-- V-ALU1, V-ALU2, V-ALU4, V-ALU6, under `I8080`. -/
theorem test_alu_add_i8080 :
    (aluAdd .i8080 0xFF#8 0x01#8).f = 0x55#8 ∧ (aluAdd .i8080 0x80#8 0x80#8).f = 0x45#8 ∧
    (aluAdd .i8080 0xFF#8 0xFF#8).f = 0x91#8 ∧ (aluAdd .i8080 0x0F#8 0x01#8).f = 0x10#8 := by
  decide

/-- V-ALU9, V-ALU13, V-ALU15, under `I8080` and both readings of `AC_SUB_RULE`. -/
theorem test_alu_sub_i8080 :
    (aluSub .i8080 .noHalfBorrow 0x00#8 0x01#8).f = 0x85#8 ∧
    (aluSub .i8080 .halfBorrow 0x00#8 0x01#8).f = 0x95#8 ∧
    (aluSub .i8080 .halfBorrow 0x10#8 0x01#8).f = 0x14#8 ∧
    (aluSub .i8080 .noHalfBorrow 0x55#8 0x55#8).f = 0x54#8 ∧
    (aluSub .i8080 .halfBorrow 0x05#8 0x07#8).f = 0x91#8 := by decide

/-- V-FS1-V-FS5. -/
theorem test_flag_merge :
    flagsMerge 0x40#8 0x01#8 0x81#8 = 0x80#8 ∧ flagsMerge 0x81#8 0x01#8 0x00#8 = 0x01#8 ∧
    flagsMerge 0x40#8 0xC0#8 0x41#8 = 0x41#8 ∧
    flagsMerge 0x00#8 (flagsAllOn .generic) 0xC1#8 = 0x00#8 ∧
    flagsMerge 0x41#8 flagsAllOff 0x80#8 = 0x80#8 := by decide

/-! ## Registers and operands -/

/-- V-RF1-V-RF4. -/
theorem test_byte_views :
    (({ State.reset with bc := 0xABCD#16 }).writeReg .c 0x12#16).bc = 0xAB12#16 ∧
    (({ State.reset with bc := 0xABCD#16 }).writeReg .b 0x12#16).bc = 0x12CD#16 ∧
    ({ State.reset with hl := 0x1234#16 }).readReg .h = 0x12#16 ∧
    ({ State.reset with hl := 0x1234#16 }).readReg .l = 0x34#16 ∧
    (State.reset.writeReg .de 0xBEEF#16).readReg .d = 0xBE#16 := by decide

/-- V-MV1-V-MV3. -/
theorem test_mask_views :
    maskRead (⟨0x0FF0#16, by decide⟩ : MaskView 16) 0xABCD#16 = 0xBC#16 ∧
    maskWrite (⟨0x00F0#16, by decide⟩ : MaskView 16) 0xABCD#16 0x12#16 = 0xAB2D#16 ∧
    maskWrite (⟨0x0F00#16, by decide⟩ : MaskView 16) 0x0000#16 0x1F#16 = 0x0F00#16 := by decide

/-- V-MV4. -/
theorem test_mask_view_refused :
    maskLegal 0x0F0F#16 = false ∧ maskLegal 0x0000#16 = false := by decide

/-- The state of section 2.4 of the vectors. -/
def operandState : State :=
  (({ State.reset with a := 0x07#8, hl := 0x3141#16, sp := 0x00FB#16 }).writeMem 0x3141#16
    0x2A#8).writeMem 0x00FB#16 0x05#8

/-- V-RS1-V-RS8. -/
theorem test_operands :
    operandState.resolve (.imm8 5#8) = ⟨.w8, 5#16⟩ ∧
    operandState.resolve (.imm16 0x1234#16) = ⟨.w16, 0x1234#16⟩ ∧
    operandState.resolve (.reg .a) = ⟨.w8, 0x07#16⟩ ∧
    operandState.resolve (.reg .h) = ⟨.w8, 0x31#16⟩ ∧
    operandState.resolve (.reg .hl) = ⟨.w16, 0x3141#16⟩ ∧
    operandState.resolve (.dir 0x3141#16) = ⟨.w8, 0x2A#16⟩ ∧
    operandState.resolve (.ind .hl) = ⟨.w8, 0x2A#16⟩ ∧
    operandState.resolve (.ind .sp) = ⟨.w8, 0x05#16⟩ := by decide

/-! ## One step of each instruction -/

/-- V-NP1: PC wraps. -/
theorem test_step_nop : (after (codeAt 0xFFFF#16 [0x00#8])).pc = 0x0000#16 := by decide

/-- V-LD3: the old `HL` is the address. -/
theorem test_step_load_ind :
    (after ({ codeAt 0x0000#16 [0x15#8, 0xCA#8] with hl := 0x3141#16 }.writeMem 0x3141#16
      0x42#8)).hl = 0x3142#16 := by decide

/-- V-LD5: `REG(PC)` is the address after the instruction. -/
theorem test_step_load_pc :
    (after (codeAt 0x0200#16 [0x1A#8, 0x4C#8])).hl = 0x0202#16 ∧
    (after (codeAt 0x0200#16 [0x1A#8, 0x4C#8])).pc = 0x0202#16 := by decide

/-- V-ST5: `ST SP, [HL]`. -/
theorem test_step_store_sp :
    (after ({ codeAt 0x0000#16 [0x20#8, 0x4B#8, 0xCA#8] with
      sp := 0x0100#16, hl := 0x2000#16 }.writeMem 0x2000#16 9#8)).mem =
      ((codeAt 0x0000#16 [0x20#8, 0x4B#8, 0xCA#8]).writeMem 0x2000#16 9#8 |>.writeMem 0x0100#16
        9#8).mem := by decide

/-- V-ST6: the store is the next instruction. -/
theorem test_step_store_pc :
    (after (codeAt 0x0300#16 [0x20#8, 0x4C#8, 0x00#8, 0xF0#8])).readMem 0x0304#16 = 0xF0#8 := by
  decide

/-- V-AR6: `S` is kept, only `H` changes. -/
theorem test_step_add :
    (after { codeAt 0x0000#16 [0x30#8, 0x41#8, 0x04#8, 0x45#8] with
      a := 0x10#8, hl := 0x2030#16, f := 0x80#8 }).hl = 0x4030#16 ∧
    (after { codeAt 0x0000#16 [0x30#8, 0x41#8, 0x04#8, 0x45#8] with
      a := 0x10#8, hl := 0x2030#16, f := 0x80#8 }).f = 0x80#8 := by decide

/-- V-AR9, under `I8080`. -/
theorem test_step_add_i8080 :
    (after { codeAt 0x0000#16 [0x30#8, 0xD5#8, 0x07#8, 0x40#8] with
      a := 0x0F#8, bc := 0x0100#16, profile := .i8080 }).a = 0x10#8 ∧
    (after { codeAt 0x0000#16 [0x30#8, 0xD5#8, 0x07#8, 0x40#8] with
      a := 0x0F#8, bc := 0x0100#16, profile := .i8080 }).f = 0x10#8 := by decide

/-- V-AR4: only `C` is committed. -/
theorem test_step_sub :
    (after { codeAt 0x0000#16 [0x31#8, 0x01#8, 0x07#8, 0x00#8, 0x32#8] with a := 20#8 }).a =
      226#8 ∧
    (after { codeAt 0x0000#16 [0x31#8, 0x01#8, 0x07#8, 0x00#8, 0x32#8] with a := 20#8 }).f =
      0x01#8 := by decide

/-- V-AR8: the difference goes to `E`, `A` stays. -/
theorem test_step_sub_dst :
    (after (codeAt 0x0000#16 [0x31#8, 0x41#8, 0x03#8, 0x00#8, 0x01#8])).de = 0x00FF#16 ∧
    (after (codeAt 0x0000#16 [0x31#8, 0x41#8, 0x03#8, 0x00#8, 0x01#8])).a = 0x00#8 := by decide

/-- V-JP1. -/
theorem test_step_jump :
    (after (codeAt 0x0100#16 [0x40#8, 0xFF#8, 0xFF#8])).pc = 0xFFFF#16 := by decide

/-- V-JP4: not taken. -/
theorem test_step_jump_on_not_taken :
    (after { codeAt 0x0100#16 [0x56#8, 0x00#8, 0x02#8] with f := 0x01#8 }).pc = 0x0103#16 := by
  decide

/-- V-JP5: taken. -/
theorem test_step_jump_on_taken :
    (after { codeAt 0x0100#16 [0x57#8, 0x00#8, 0x02#8] with f := 0x80#8 }).pc = 0x0200#16 := by
  decide

/-- V-SK2: SP wraps. -/
theorem test_step_push_wraps :
    (after { codeAt 0x0100#16 [0x60#8, 0x47#8] with a := 0x77#8 }).sp = 0xFFFF#16 ∧
    (after { codeAt 0x0100#16 [0x60#8, 0x47#8] with a := 0x77#8 }).readMem 0xFFFF#16 = 0x77#8 := by
  decide

/-- V-SK3: `PUSH [SP]` reads before it writes. -/
theorem test_step_push_ind :
    (after ({ codeAt 0x0100#16 [0x60#8, 0xCB#8] with sp := 0x00FF#16 }.writeMem 0x00FF#16
      3#8)).readMem 0x00FE#16 = 3#8 := by decide

/-- V-SK4: SP wraps, the byte stays. -/
theorem test_step_pop_wraps :
    (after ({ codeAt 0x0100#16 [0x77#8] with sp := 0xFFFF#16 }.writeMem 0xFFFF#16 0x12#8)).a =
      0x12#8 ∧
    (after ({ codeAt 0x0100#16 [0x77#8] with sp := 0xFFFF#16 }.writeMem 0xFFFF#16 0x12#8)).sp =
      0x0000#16 := by decide

/-- V-SK5. -/
theorem test_step_pop_half :
    (after ({ codeAt 0x0100#16 [0x75#8] with sp := 0x1000#16, hl := 0x1234#16 }.writeMem 0x1000#16
      0xEE#8)).hl = 0x12EE#16 := by decide

/-- V-CD1: `IF Z, HALT` with `Z` set. -/
theorem test_step_cond_taken :
    (after { codeAt 0x0100#16 [0x8E#8, 0xF0#8] with f := 0x40#8 }).run = .halted ∧
    (after { codeAt 0x0100#16 [0x8E#8, 0xF0#8] with f := 0x40#8 }).pc = 0x0102#16 := by decide

/-- V-CD6: a guard that fails writes nothing. -/
theorem test_step_cond_not_taken :
    after { codeAt 0x0100#16 [0x88#8, 0x30#8, 0xC1#8, 0x07#8, 0x00#8, 0x01#8] with a := 1#8 } =
      { codeAt 0x0100#16 [0x88#8, 0x30#8, 0xC1#8, 0x07#8, 0x00#8, 0x01#8] with
        a := 1#8, pc := 0x0106#16 } := by decide

/-- V-HT1. -/
theorem test_step_halt :
    (after (codeAt 0x000F#16 [0xF0#8])).pc = 0x0010#16 ∧
    (after (codeAt 0x000F#16 [0xF0#8])).run = .halted := by decide

/-- V-DEC5 and V-DEC18: PC past the bytes fetched, nothing else but `RUN`. -/
theorem test_step_error :
    after (codeAt 0x0100#16 [0x17#8, 0x10#8]) =
      { codeAt 0x0100#16 [0x17#8, 0x10#8] with pc := 0x0102#16, run := .error } ∧
    (after (codeAt 0x0100#16 (List.replicate 16 0x86#8))).pc = 0x0110#16 := by decide

/-! ## Witnesses: a state and operands that meet the hypotheses of each statement -/

/-- The image of program P4's first instruction, across the top of memory: `LD A, #220` at 0xFFFE. -/
def wrapState : State := codeAt 0xFFFE#16 [0x17#8, 0x00#8, 0xDC#8]

/-- A decoder other than `DescDecode`, which answers an ill-formed term. -/
def badDecoder : Decoder := fun _ => .instr (.load .a (.imm16 5#16))

/-- A decoder that never has enough. -/
def hungryDecoder : Decoder := fun _ => .needMore

/-- DecodeOfEncode: a `STORE`, and a `COND` of 16 bytes, the longest. -/
theorem test_witness_DecodeOfEncode :
    (Instr.store (.imm16 0x2000#16) (.dir 0x3000#16)).wf .generic = true ∧
    encode (.store (.imm16 0x2000#16) (.dir 0x3000#16)) =
      some [0x20#8, 0x20#8, 0x00#8, 0x20#8, 0x80#8, 0x00#8, 0x30#8] ∧
    (Nat.repeat (Instr.cond (.fclr .z)) 15 .nop).wf .i8080 = true ∧
    encode (Nat.repeat (Instr.cond (.fclr .z)) 15 .nop) =
      some (List.replicate 15 0x86#8 ++ [0x00#8]) := by decide

/-- EncodeOfDecode, IncompleteDescriptorNeedsMore: with `k` at 0 and at the last byte but one. -/
theorem test_witness_EncodeOfDecode :
    descDecode .generic [0x17#8, 0x00#8, 0x0A#8] = .instr (.load .a (.imm8 10#8)) ∧
    0 < [0x17#8, 0x00#8, 0x0A#8].length ∧ 2 < [0x17#8, 0x00#8, 0x0A#8].length := by decide

theorem test_witness_InvalidBytesHaveNoExtension :
    descDecode .generic [0x32#8] = .invalid .reservedTag ∧
    descDecode .generic [0x78#8] = .invalid (.illFormed [.pop]) := by decide

/-- RefusedFirstBytes: the ends of R77's reserved ranges, and the tags beside them. -/
theorem test_witness_RefusedFirstBytes :
    (∀ n ∈ [0x01, 0x0F, 0x21, 0x2F, 0x32, 0x3F, 0x41, 0x4F, 0x58, 0x5F, 0x61, 0x6F, 0x90, 0xEF,
      0xF1, 0xFF, 0x16, 0x1D, 0x1F, 0x76, 0x78, 0x7C, 0x7F, 0x51, 0x52, 0x54, 0x83, 0x8A],
      refusedTag .generic n = true) ∧
    (∀ n ∈ [0x00, 0x10, 0x15, 0x17, 0x1C, 0x20, 0x30, 0x31, 0x40, 0x50, 0x56, 0x57, 0x60, 0x70,
      0x75, 0x77, 0x80, 0x88, 0x8F, 0xF0], refusedTag .generic n = false) ∧
    refusedTag .i8080 0x52 = false ∧ refusedTag .i8080 0x55 = true := by decide

/-- RefusedLaterBytes: the ends of the `COND` row, an operand byte of each reserved kind, both kinds of destination
byte, and tags on both sides of the `POP` tags left out. -/
theorem test_witness_RefusedLaterBytes :
    (∀ g ∈ [0x80#8, 0x8F#8], g.toNat / 16 = 8) ∧
    (∀ n ∈ [0x01, 0x10, 0x2F, 0x46, 0x4D, 0x60, 0x81, 0xA0, 0xC6, 0xCF, 0xE0, 0xFF],
      refusedOperandByte n = true) ∧
    (∀ n ∈ [0x00, 0x20, 0x40, 0x4C, 0x80, 0xC7, 0xCC], refusedOperandByte n = false) ∧
    (0x10#8).toNat / 16 ≠ 0 ∧ reservedCode ((0x06#8).toNat % 16) = true ∧
    reservedCode ((0x0F#8).toNat % 16) = true ∧
    refusedTag .generic (0x76#8).toNat = true ∧ (0x76#8).toNat < 0x78 ∧
    refusedTag .generic (0x7D#8).toNat = true ∧ 0x7C < (0x7D#8).toNat := by decide

/-- StepRunsDecodedInstruction, StepRefinesTermExecution: across the top of memory. -/
theorem test_witness_StepRunsDecodedInstruction :
    wrapState.run = .running ∧
    descDecode wrapState.profile (wrapState.bytesAt 3) = .instr (.load .a (.imm8 220#8)) ∧
    (Instr.load .a (.imm8 220#8)).wf wrapState.profile = true ∧
    encode (.load .a (.imm8 220#8)) = some [0x17#8, 0x00#8, 0xDC#8] ∧
    wrapState.bytesAt 3 = [0x17#8, 0x00#8, 0xDC#8] := by decide

/-- DecodeFailureEndsInError, the decoder's `Invalid`: V-DEC5, at the second byte. -/
theorem test_witness_DecodeFailureEndsInError_invalid :
    (codeAt 0x0100#16 [0x17#8, 0x10#8]).run = .running ∧
    (∀ k, 1 ≤ k → k < 2 →
      descDecode .generic ((codeAt 0x0100#16 [0x17#8, 0x10#8]).bytesAt k) = .needMore) ∧
    ∃ e, descDecode .generic ((codeAt 0x0100#16 [0x17#8, 0x10#8]).bytesAt 2) = .invalid e := by
  refine ⟨by decide, fun k h1 h2 => ?_, .reservedOperandByte, by decide⟩
  obtain rfl : k = 1 := by omega
  decide

/-- DecodeFailureEndsInError, more wanted after 16 bytes. -/
theorem test_witness_DecodeFailureEndsInError_bound :
    State.reset.run = .running ∧
    (∀ k, 1 ≤ k → k < 16 → hungryDecoder (State.reset.bytesAt k) = .needMore) ∧
    hungryDecoder (State.reset.bytesAt 16) = .needMore :=
  ⟨rfl, fun _ _ _ => rfl, rfl⟩

theorem test_witness_PreconditionViolationEndsInError :
    State.reset.run = .running ∧
    (∀ k, 1 ≤ k → k < 1 → badDecoder (State.reset.bytesAt k) = .needMore) ∧
    badDecoder (State.reset.bytesAt 1) = .instr (.load .a (.imm16 5#16)) ∧
    (Instr.load .a (.imm16 5#16)).wf State.reset.profile = false :=
  ⟨rfl, fun _ h1 h2 => absurd h2 (by omega), rfl, rfl⟩

theorem test_witness_ExactlyIllFormedTermsFail :
    (Instr.push (.reg .bc)).wf State.reset.profile = false ∧
    (Instr.push (.reg .b)).wf State.reset.profile = true ∧ State.reset.run = .running := by decide

theorem test_witness_TerminalStatesStopByName :
    { State.reset with run := .halted }.run = .halted ∧
    { State.reset with run := .error }.run = .error := by decide

theorem test_witness_ErrorIsPrecise :
    ∃ t, cycleWith (descDecode .generic) (codeAt 0x0000#16 [0x32#8]) = .next t ∧ t.run = .error :=
  ⟨_, rfl, rfl⟩

theorem test_witness_OnlyHaltReachesHalted :
    ∃ t, step { codeAt 0x0100#16 [0x8E#8, 0xF0#8] with f := 0x40#8 } = .next t ∧ t.run = .halted :=
  ⟨_, rfl, rfl⟩

/-- RunEndsExactlyAtTerminalStates: a run of one cycle that has ended, and one that has not. -/
theorem test_witness_RunEndsExactlyAtTerminalStates :
    (runCycles 1 (codeAt 0x0000#16 [0xF0#8])).run ≠ .running ∧
    (runCycles 1 (codeAt 0x0000#16 [0x00#8])).run = .running := by decide

theorem test_witness_CycleKeepsInvariant :
    wrapState.Inv ∧ ∃ t, cycleWith (descDecode .generic) wrapState = .next t :=
  ⟨by decide, _, rfl⟩

/-- LoaderStoresItsBytes: an address among the bytes and one that is not. -/
theorem test_witness_LoaderStoresItsBytes :
    State.reset.Inv ∧ [0x17#8, 0x05#8].length ≤ 65536 ∧ 1 < [0x17#8, 0x05#8].length ∧
    ∀ k, k < [0x17#8, 0x05#8].length → 0x0001#16 ≠ 0xFFFF#16 + BitVec.ofNat 16 k := by decide

theorem test_witness_ByteViewsAlias :
    ((Reg.bc, Reg.b, Reg.c) = (.bc, .b, .c)) ∧ ((Reg.de, Reg.d, Reg.e) = (.de, .d, .e)) ∧
    ((Reg.hl, Reg.h, Reg.l) = (.hl, .h, .l)) ∧ maskLegal 0x0FF0#16 = true := by decide

/-- MultiplexerReadsBackWrites: the two halves of a pair, and a pair beside another cell; the pair and its
half do share storage. -/
theorem test_witness_MultiplexerReadsBackWrites :
    overlaps .b .c = false ∧ overlaps .hl .sp = false ∧ overlaps .hl .l = true ∧
    overlaps .l .hl = true ∧ Reg.b.width = .w8 ∧ Reg.pc.width = .w16 := by decide

/-- AluSubResultAndFlags, SubtractionRelatesToAddition. -/
theorem test_witness_AluSubResultAndFlags :
    FlagProfile.i8080 = .i8080 ∧ AcSubRule.noHalfBorrow = .noHalfBorrow ∧
    AcSubRule.halfBorrow = .halfBorrow ∧ (0x01#8 : Byte) ≠ 0x00#8 := by decide

theorem test_witness_MaskedCommitChangesMaskedFlagsOnly :
    State.reset.Inv ∧ isFlagSet State.reset.profile 0xC1#8 = true ∧
    (0x01#8).getLsbD 0 = true ∧ (0x01#8).getLsbD 7 = false := by decide

/-- LoadResult: a byte destination, and `PC`. -/
theorem test_witness_LoadResult :
    (Instr.load .l (.ind .hl)).wf State.reset.profile = true ∧
    (Instr.load .pc (.reg .hl)).wf State.reset.profile = true := by decide

/-- StoreResult: the address and the byte beside it. -/
theorem test_witness_StoreResult :
    operandState.Inv ∧ (Instr.store (.reg .hl) (.ind .sp)).wf operandState.profile = true ∧
    0x3141#16 = operandState.resolveWord (.reg .hl) ∧
    0x3142#16 ≠ operandState.resolveWord (.reg .hl) := by decide

/-- AddResult, SubResult: the whole mask and the empty one. -/
theorem test_witness_AddResult :
    (Instr.arithAdd 0xC1#8 .h (.reg .l)).wf State.reset.profile = true ∧
    (Instr.arithAdd 0x00#8 .a (.ind .hl)).wf State.reset.profile = true ∧
    (Instr.arithSub 0xC1#8 .e (.imm8 1#8)).wf State.reset.profile = true ∧
    overlaps .h .l = false := by decide

theorem test_witness_JumpResult :
    (codeAt 0xFFFF#16 [0x40#8, 0x00#8, 0x02#8]).run = .running ∧
    (codeAt 0xFFFF#16 [0x40#8, 0x00#8, 0x02#8]).bytesAt 3 = [0x40#8, 0x00#8, 0x02#8] := by decide

/-- JumpOnResult: the flags at both ends of `F`. -/
theorem test_witness_JumpOnResult :
    Flag.inProfile .generic .c = true ∧ Flag.inProfile .generic .s = true ∧
    Flag.inProfile .i8080 .ac = true ∧
    (codeAt 0x0100#16 [0x57#8, 0x00#8, 0x02#8]).run = .running ∧
    (codeAt 0x0100#16 [0x57#8, 0x00#8, 0x02#8]).bytesAt 3 =
      [0x50#8 + BitVec.ofNat 8 (Flag.pos .s), 0x00#8, 0x02#8] := by decide

/-- PushResult: SP at 0, so that the push wraps. -/
theorem test_witness_PushResult :
    State.reset.Inv ∧ (Instr.push (.imm8 3#8)).wf State.reset.profile = true ∧
    0xFFFF#16 = State.reset.sp - 1#16 := by decide

theorem test_witness_PopResult : Reg.width .l = .w8 ∧ overlaps .l .h = false := by decide

/-- CondResult, with each predicate of a flag, and NestedGuardsAreConjunction. -/
theorem test_witness_CondResult :
    (Instr.cond (.fset .z) .halt).wf State.reset.profile = true ∧
    (Instr.cond (.fclr .c) (.jump 0#16)).wf State.reset.profile = true ∧
    (Instr.cond (.ext 0) .nop).wf State.reset.profile = true ∧
    (Instr.cond (.fset .c) (.cond (.fclr .z) (.jump 0x0300#16))).wf State.reset.profile = true := by
  decide

/-- NopResult, HaltResult. -/
theorem test_witness_NopResult :
    State.reset.run = .running ∧ State.reset.readMem State.reset.pc = 0x00#8 ∧
    (codeAt 0x000F#16 [0xF0#8]).run = .running ∧
    (codeAt 0x000F#16 [0xF0#8]).readMem (codeAt 0x000F#16 [0xF0#8]).pc = 0xF0#8 := by decide

/-- OnlyListedRegistersAreWritten, OnlyArithmeticWritesFlags, OnlyStoreAndPushWriteMemory: a `POP`. -/
theorem test_witness_OnlyListedRegistersAreWritten :
    (∃ t, exec (.pop .h) State.reset = .next t) ∧
    (∀ r ∈ writtenRegs (.pop .h), overlaps r .l = false) ∧
    (writtenFlags (.pop .h)).getLsbD 0 = false ∧
    (∀ dst src, innermost (.pop .h) ≠ .store dst src) ∧
    (∀ src, innermost (.pop .h) ≠ .push src) := by
  refine ⟨⟨_, rfl⟩, by decide, by decide, ?_, ?_⟩
  · intro dst src h; cases h
  · intro src h; cases h

/-- OnlyStoreAndPushWriteMemory: a guarded `STORE` beside its address. -/
theorem test_witness_OnlyStoreAndPushWriteMemory :
    (∃ t, exec (.cond (.fclr .z) (.store (.imm16 0x2000#16) (.imm8 7#8))) State.reset = .next t) ∧
    innermost (.cond (.fclr .z) (.store (.imm16 0x2000#16) (.imm8 7#8))) =
      .store (.imm16 0x2000#16) (.imm8 7#8) ∧
    0x2001#16 ≠ State.reset.resolveWord (.imm16 0x2000#16) :=
  ⟨⟨_, rfl⟩, rfl, by decide⟩

/-- FlagsDoNotLeak: a `LOAD`. -/
theorem test_witness_FlagsDoNotLeak :
    (∀ a g, Instr.load .a (.imm8 1#8) ≠ .jumpOn a g) ∧
    (∀ q j, Instr.load .a (.imm8 1#8) ≠ .cond q j) ∧
    (∀ m dst o, Instr.load .a (.imm8 1#8) ≠ .arithAdd m dst o) ∧
    (∀ m dst o, Instr.load .a (.imm8 1#8) ≠ .arithSub m dst o) ∧
    ∃ t, exec (.load .a (.imm8 1#8)) State.reset = .next t := by
  refine ⟨?_, ?_, ?_, ?_, _, rfl⟩
  · intro a g h; cases h
  · intro q j h; cases h
  · intro m dst o h; cases h
  · intro m dst o h; cases h

/-- StoreIsSeenByNextFetch: the byte at PC and the one beside it, by a STORE through a register, and by a PUSH with SP
one above PC. -/
theorem test_witness_StoreIsSeenByNextFetch :
    State.reset.Inv ∧ (Instr.store (.reg .hl) (.reg .b)).wf State.reset.profile = true ∧
    State.reset.resolveWord (.reg .hl) = State.reset.pc + BitVec.ofNat 16 0 ∧
    State.reset.resolveWord (.reg .hl) ≠ State.reset.pc + BitVec.ofNat 16 1 ∧
    { State.reset with sp := 1#16 }.Inv ∧ (Instr.push (.ind .sp)).wf State.reset.profile = true ∧
    { State.reset with sp := 1#16 }.sp - 1#16 = State.reset.pc + BitVec.ofNat 16 0 := by decide

/-- PairThroughMemoryIsUnchanged: two different pairs, across the top of memory. -/
theorem test_witness_PairThroughMemoryIsUnchanged :
    State.reset.Inv ∧ 0xFFFF#16 ≠ 0x0000#16 ∧ Pair.bc ≠ Pair.hl ∧
    overlaps (Pair.whole .hl) .sp = false := by decide

/-- PushesThenPopsReverse: S4's bytes. -/
theorem test_witness_PushesThenPopsReverse :
    State.reset.Inv ∧ Reg.width .a = .w8 ∧
    [3#8, 1#8, 4#8, 1#8, 5#8].length ≤ 65536 := by decide

/-- PairThroughStackIsUnchanged: two different pairs. -/
theorem test_witness_PairThroughStackIsUnchanged :
    State.reset.Inv ∧ Pair.bc ≠ Pair.hl ∧ overlaps (Pair.whole .hl) .b = false := by decide

theorem test_witness_SubThenJumpCompares :
    Reg.width .a = .w8 ∧ (Operand.ind .hl).width = .w8 ∧ wfInd (.ind .hl) = true := by decide

end Sys2Proof.Tests
end

section
/-! SUPPORT. Laws of the state that the frozen ones lack: byte views and mask views bit by bit, what a write set
reaches, and all that a cycle can do. -/

namespace Sys2Proof.Machine

/-! ## Byte views -/

theorem zextByte_hiByte (v : Word) : zextByte (hiByte v) = v >>> 8 := by
  ext i hi
  by_cases h : i < 8
  · simp [zextByte, hiByte, h]
  · simp [zextByte, hiByte, h, BitVec.getLsbD_of_ge v (8 + i) (by omega)]

theorem zextByte_loByte (v : Word) : zextByte (loByte v) = v &&& 0x00FF#16 := by
  have low : ∀ i (hi : i < 16), (0x00FF#16)[i] = decide (i < 8) := by decide
  ext i hi
  simp [zextByte, loByte, low i hi, BitVec.getLsbD_eq_getElem hi, Bool.and_comm]

/-- A word is its high byte above its low byte, as the register file's port spells them (30_encoding.md R66). -/
theorem zextByte_hiByte_or_zextByte_loByte (v : Word) :
    (zextByte (hiByte v) <<< 8) ||| zextByte (loByte v) = v := by
  ext i hi
  by_cases h : i < 8
  · simp [zextByte, hiByte, loByte, h, BitVec.getLsbD_eq_getElem hi]
  · simp [zextByte, hiByte, loByte, h, show i - 8 < 8 by omega, show 8 + (i - 8) = i by omega,
      BitVec.getLsbD_eq_getElem hi]

theorem State.readReg_hi (s : State) (p : Pair) :
    s.readReg p.hi = zextByte (hiByte (s.readReg p.whole)) := by
  cases p <;> rfl

theorem State.readReg_lo (s : State) (p : Pair) :
    s.readReg p.lo = zextByte (loByte (s.readReg p.whole)) := by
  cases p <;> rfl

theorem State.readReg_writeReg_whole (s : State) (p : Pair) (v : Word) :
    (s.writeReg p.whole v).readReg p.whole = v := by
  cases p <;> rfl

theorem Pair.overlaps_lo_hi (p : Pair) : overlaps p.lo p.hi = false := by
  cases p <;> rfl

theorem Pair.overlaps_hi_lo (p : Pair) : overlaps p.hi p.lo = false := by
  cases p <;> rfl

/-! ## Mask views -/

theorem maskWrite_and_not_mask {w : Nat} (view : MaskView w) (cell v : BitVec w) :
    maskWrite view cell v &&& ~~~view.mask = cell &&& ~~~view.mask := by
  ext i hi
  cases hm : view.mask[i] <;> simp [maskWrite, hm]

/-- What a legal mask is shifted down by its trailing zeros: its one-bits, at the bottom (10_state.md R29). -/
theorem MaskView.mask_ushiftRight_ctz {w : Nat} (view : MaskView w) :
    view.mask >>> ctz view.mask = BitVec.ofNat w (2 ^ popcount view.mask - 1) := by
  have h := view.legal
  simp only [maskLegal, Bool.and_eq_true, decide_eq_true_eq] at h
  exact h.2

/-- A field reads back as far as the shifted mask reaches: a bit of `v` that the shift to the mask drops lies outside
it. -/
theorem maskRead_maskWrite {w : Nat} (view : MaskView w) (cell v : BitVec w) :
    maskRead view (maskWrite view cell v) = v &&& (view.mask >>> ctz view.mask) := by
  ext i hi
  cases hm : view.mask.getLsbD (ctz view.mask + i) with
  | false => simp [maskRead, hm]
  | true =>
    have hlt : ctz view.mask + i < w := by
      by_contra hge
      rw [BitVec.getLsbD_of_ge _ _ (by omega)] at hm
      cases hm
    rw [BitVec.getLsbD_eq_getElem hlt] at hm
    simp [maskRead, maskWrite, hm, hlt]

/-! ## The masked merge -/

/-- A bit outside the commit mask is the old one (40_alu_flags.md R99). -/
theorem flagsMerge_getLsbD_of_not_mask {f mask old : Byte} {k : Nat} (h : mask.getLsbD k = false) :
    (flagsMerge f mask old).getLsbD k = old.getLsbD k := by
  by_cases hk : k < 8
  · rw [BitVec.getLsbD_eq_getElem hk] at h
    simp [flagsMerge, h, hk]
  · rw [BitVec.getLsbD_of_ge _ _ (by omega), BitVec.getLsbD_of_ge _ _ (by omega)]

theorem wfMask_iff (p : FlagProfile) (mask : Byte) :
    wfMask p mask = true ↔ mask &&& ~~~p.fmask = 0x00#8 := by
  simp [wfMask]

/-- A merge under a mask inside `FMASK` keeps the bits outside it 0 (10_state.md R34). -/
theorem flagsMerge_outside_fmask {p : FlagProfile} {f mask old : Byte}
    (hm : wfMask p mask = true) (ho : old &&& ~~~p.fmask = 0x00#8) :
    flagsMerge f mask old &&& ~~~p.fmask = 0x00#8 := by
  rw [wfMask_iff] at hm
  calc flagsMerge f mask old &&& ~~~p.fmask
      = (f &&& (mask &&& ~~~p.fmask)) ||| (~~~mask &&& (old &&& ~~~p.fmask)) := by
        ext i hi
        simp only [flagsMerge, BitVec.getElem_and, BitVec.getElem_or, BitVec.getElem_not]
        cases mask[i] <;> simp
    _ = 0x00#8 := by simp [hm, ho]

/-! ## What a write set reaches -/

/-- The register codes that a write set writes, `SP` and `PC` among them. -/
def WriteSet.regs (w : WriteSet) : List Reg :=
  w.reg.toList.map Prod.fst ++ w.sp.toList.map (fun _ => .sp) ++ w.pc.toList.map fun _ => .pc

@[simp] theorem State.readReg_commitFlags (s : State) (f mask : Byte) (q : Reg) :
    (s.commitFlags f mask).readReg q = s.readReg q := by
  cases q <;> rfl

@[simp] theorem State.readReg_withRun (s : State) (r : RunState) (q : Reg) :
    ({ s with run := r } : State).readReg q = s.readReg q := by
  cases q <;> rfl

@[simp] theorem readReg_raiseError (s : State) (q : Reg) : (raiseError s).readReg q = s.readReg q :=
  s.readReg_withRun .error q

/-- As `applyWrite_field`, where the value is known to be the write's. -/
theorem applyWrite_field_of_eq_some {α β : Type} (g : State → β) (w : Option α) (f : State → α → State)
    (s : State) (h : ∀ v, w = some v → g (f s v) = g s) : g (applyWrite w f s) = g s := by
  cases w with
  | none => rfl
  | some v => exact h v rfl

/-- A commit leaves every register code alone that shares no storage with those the write set writes. -/
theorem readReg_commit {w : WriteSet} {q : Reg} (s : State)
    (h : ∀ r ∈ w.regs, overlaps r q = false) : (commit w s).readReg q = s.readReg q := by
  have hreg : ∀ x, w.reg = some x → overlaps x.1 q = false := fun x hx =>
    h x.1 (by simp [WriteSet.regs, hx])
  have hsp : ∀ v, w.sp = some v → overlaps .sp q = false := fun v hv =>
    h .sp (by simp [WriteSet.regs, hv])
  have hpc : ∀ v, w.pc = some v → overlaps .pc q = false := fun v hv =>
    h .pc (by simp [WriteSet.regs, hv])
  refine (applyWrite_field (State.readReg · q) w.run _ _ fun v =>
    State.readReg_withRun _ v q).trans ?_
  refine (applyWrite_field_of_eq_some (State.readReg · q) w.pc _ _ fun v hv =>
    State.readReg_writeReg_other _ .pc q v (hpc v hv)).trans ?_
  refine (applyWrite_field_of_eq_some (State.readReg · q) w.sp _ _ fun v hv =>
    State.readReg_writeReg_other _ .sp q v (hsp v hv)).trans ?_
  refine (applyWrite_field (State.readReg · q) w.mem _ _ fun x =>
    State.readReg_writeMem _ x.1 x.2 q).trans ?_
  refine (applyWrite_field (State.readReg · q) w.flags _ _ fun x =>
    State.readReg_commitFlags _ x.1 x.2 q).trans ?_
  exact applyWrite_field_of_eq_some (State.readReg · q) w.reg _ _ fun x hx =>
    State.readReg_writeReg_other _ x.1 q x.2 (hreg x hx)

/-- A commit keeps the invariant where the mask of its flag write, if it has one, lies inside `FMASK`. -/
theorem commit_inv {w : WriteSet} {s : State} (hs : s.Inv)
    (hm : ∀ x, w.flags = some x → wfMask s.profile x.2 = true) : (commit w s).Inv := by
  obtain ⟨hmem, hf⟩ := hs
  constructor
  · rw [commit_mem]
    cases w.mem with
    | none => exact hmem
    | some x => exact State.writeMem_wf hmem x.1 x.2
  · rw [commit_f, commit_profile]
    cases hw : w.flags with
    | none => exact hf
    | some x => exact flagsMerge_outside_fmask (hm x hw) hf

/-- A commit leaves the bits of `F` outside the mask of its flag write as they are. -/
theorem commit_f_getLsbD {w : WriteSet} {k : Nat} (s : State)
    (hm : ∀ x, w.flags = some x → x.2.getLsbD k = false) :
    (commit w s).f.getLsbD k = s.f.getLsbD k := by
  rw [commit_f]
  cases hw : w.flags with
  | none => rfl
  | some x => exact flagsMerge_getLsbD_of_not_mask (hm x hw)

/-- A commit without a flag write takes `F` along as it is. -/
theorem commit_withF {w : WriteSet} (s : State) (f : Byte) (hw : w.flags = none) :
    commit w { s with f := f } = { commit w s with f := f } := by
  have hreg (r : Reg) (v : Word) :
      ({ s with f := f } : State).writeReg r v = { s.writeReg r v with f := f } := by
    cases r <;> rfl
  obtain ⟨reg, flags, mem, sp, pc, run⟩ := w
  cases hw
  cases reg <;> cases mem <;> cases sp <;> cases pc <;> cases run <;>
    simp [commit, hreg, State.writeMem]

/-! ## The write sets of the instructions -/

/-- Only an `ARITH`, bare or guarded, has a flag write, and its mask is the instruction's (10_state.md R40). -/
theorem writesOf_flags {i : Instr} {s : State} {x : Byte × Byte}
    (h : (writesOf i s).flags = some x) : x.2 = writtenFlags i := by
  induction i with
  | cond q inner ih =>
    cases hq : s.holds q with
    | true => exact ih (by simpa [writesOf, hq] using h)
    | false => simp [writesOf, hq, noWrite] at h
  | jumpOn target g =>
    cases hg : s.flag g <;> simp [writesOf, jumpOnWrites, hg, noWrite, jumpWrites] at h
  | arithAdd mask dst rhs => cases h; rfl
  | arithSub mask dst rhs => cases h; rfl
  | _ => cases h

/-- The commit mask of a well-formed term lies inside `FMASK` (30_encoding.md R84 `WF-MASK`). -/
theorem wfMask_writtenFlags {i : Instr} {p : FlagProfile} (h : i.wf p = true) :
    wfMask p (writtenFlags i) = true := by
  induction i with
  | cond q inner ih =>
    simp only [Instr.wf, Bool.and_eq_true] at h
    exact ih h.2
  | arithAdd mask dst rhs =>
    simp only [Instr.wf, Bool.and_eq_true] at h
    exact h.1.2
  | arithSub mask dst rhs =>
    simp only [Instr.wf, Bool.and_eq_true] at h
    exact h.1.2
  | _ => simp [writtenFlags, innermost, wfMask]

/-- The write set of an instruction writes no register code beyond the instruction's row of 10_state.md R31. -/
theorem writesOf_regs_subset (i : Instr) (s : State) :
    (writesOf i s).regs ⊆ writtenRegs i := by
  induction i with
  | cond q inner ih =>
    cases hq : s.holds q with
    | true => rw [writesOf, if_pos hq]; exact ih
    | false => simp [writesOf, hq, noWrite, WriteSet.regs]
  | jumpOn target g =>
    cases hg : s.flag g <;>
      simp [writesOf, jumpOnWrites, hg, noWrite, jumpWrites, WriteSet.regs, writtenRegs, innermost]
  | _ => exact List.Subset.refl _

/-! ## Instructions that neither commit nor test flags -/

/-- `ARITH` commits flags; `JUMP_ON` and `COND` test one (10_state.md R23). -/
def usesFlags : Instr → Bool
  | .arithAdd _ _ _ | .arithSub _ _ _ | .jumpOn _ _ | .cond _ _ => true
  | .nop | .load _ _ | .store _ _ | .jump _ | .push _ | .pop _ | .halt => false

/-- No register code reaches `F` (10_state.md R23). -/
@[simp] theorem State.readReg_withF (s : State) (f : Byte) (q : Reg) :
    ({ s with f := f } : State).readReg q = s.readReg q := by
  cases q <;> rfl

@[simp] theorem State.resolve_withF (s : State) (f : Byte) (op : Operand) :
    ({ s with f := f } : State).resolve op = s.resolve op := by
  cases op with
  | reg r => simp [State.resolve]
  | ind r => simp only [State.resolve, State.readReg_withF]; rfl
  | _ => rfl

theorem writesOf_withF {i : Instr} (h : usesFlags i = false) (s : State) (f : Byte) :
    writesOf i { s with f := f } = writesOf i s := by
  cases i with
  | load dst src => simp [writesOf, loadWrites]
  | store dst src => simp [writesOf, storeWrites, State.resolveWord, State.resolveByte]
  | push src => simp [writesOf, pushWrites, State.resolveByte]
  | nop | jump target | pop dst | halt => rfl
  | arithAdd | arithSub | jumpOn | cond => cases h

theorem writesOf_flags_eq_none {i : Instr} (h : usesFlags i = false) (s : State) :
    (writesOf i s).flags = none := by
  cases i with
  | arithAdd | arithSub | jumpOn | cond => cases h
  | _ => rfl

/-! ## A cycle -/

/-- The check before the execution of a decoded term is the one that `exec` makes itself. -/
theorem ite_wf_exec (i : Instr) (s : State) :
    (if i.wf s.profile then exec i s else .next (raiseError s)) = exec i s := by
  cases h : i.wf s.profile with
  | true => rfl
  | false => exact (exec_of_not_wf h).symm

/-- All that a cycle with a next state can do: from a `Running` state it fetches between 1 and 16 bytes, and then
goes to `Error` or commits the write set of the well-formed term that the decoder answered. -/
theorem cycleWith_cases {dec : Decoder} {s t : State} (h : cycleWith dec s = .next t) :
    s.run = .running ∧ ∃ n, 0 < n ∧ n ≤ Config.maxInsnLen ∧
      (fetchInsn dec s).bytes = s.bytesAt n ∧
      (t = raiseError (s.advance n) ∨
        ∃ i, dec (s.bytesAt n) = .instr i ∧ i.wf s.profile = true ∧
          t = commit (writesOf i (s.advance n)) (s.advance n)) := by
  cases hrun : s.run with
  | halted => simp [cycleWith, hrun] at h
  | error => simp [cycleWith, hrun] at h
  | running =>
    obtain ⟨n, h0, hn, -, hstate, hbytes, hverdict⟩ :=
      fetchLoop_cases dec Config.maxInsnLen [] s (by decide)
    simp only [cycleWith, hrun, fetchExec, fetchInsn, hstate] at h
    refine ⟨rfl, n, h0, hn, hbytes, ?_⟩
    obtain ⟨i, hok, hdec⟩ | ⟨e, herr, -⟩ := hverdict
    · simp only [hok, ite_wf_exec] at h
      obtain ⟨hwf, ht⟩ | ⟨-, ht⟩ := exec_cases h
      · exact .inr ⟨i, hdec, hwf, ht⟩
      · exact .inl ht
    · simp only [herr] at h
      cases h
      exact .inl rfl

/-- A fetch moves PC and nothing else (42_cycle.md R113). -/
theorem fetchInsn_state (dec : Decoder) (s : State) : ∃ n, (fetchInsn dec s).state = s.advance n := by
  obtain ⟨n, -, -, -, hstate, -⟩ := fetchLoop_cases dec Config.maxInsnLen [] s (by decide)
  exact ⟨n, hstate⟩

end Sys2Proof.Machine
end

section
/-! SUPPORT. The statements about the state: views, the multiplexer, the invariant, and who writes what. -/

namespace Sys2Proof.Machine

/-- Settles O18: of the two ends of a cycle, the error entry touches neither memory nor `F`, and the commit of a
well-formed term merges into `F` under a mask inside `FMASK`. -/
theorem cycleKeepsInvariant : Obligations.CycleKeepsInvariant := by
  intro dec s t hs ht
  obtain ⟨-, n, -, -, -, rfl | ⟨i, -, hwf, rfl⟩⟩ := cycleWith_cases ht
  · exact ⟨hs, rfl⟩
  · refine ⟨commit_inv hs fun x hx => ?_, commit_profile _ _⟩
    rw [writesOf_flags hx]
    exact wfMask_writtenFlags hwf

/-- What 10_state.md R27 says of one pair. -/
theorem pair_byteViews (s : State) (v : Word) (x : Byte) (p : Pair) :
    ((s.writeReg p.whole v).writeReg p.lo (zextByte x)).readReg p.hi = v >>> 8 ∧
    ((s.writeReg p.whole v).writeReg p.hi (zextByte x)).readReg p.lo = v &&& 0x00FF#16 ∧
    (s.writeReg p.whole v).readReg p.hi = v >>> 8 ∧
    (s.writeReg p.whole v).readReg p.lo = v &&& 0x00FF#16 ∧
    s.readReg p.whole = (s.readReg p.hi <<< 8) ||| s.readReg p.lo := by
  have hhi : (s.writeReg p.whole v).readReg p.hi = v >>> 8 := by
    rw [State.readReg_hi, State.readReg_writeReg_whole, zextByte_hiByte]
  have hlo : (s.writeReg p.whole v).readReg p.lo = v &&& 0x00FF#16 := by
    rw [State.readReg_lo, State.readReg_writeReg_whole, zextByte_loByte]
  refine ⟨?_, ?_, hhi, hlo, ?_⟩
  · rw [State.readReg_writeReg_other _ _ _ _ p.overlaps_lo_hi, hhi]
  · rw [State.readReg_writeReg_other _ _ _ _ p.overlaps_hi_lo, hlo]
  · rw [State.readReg_hi, State.readReg_lo, zextByte_hiByte_or_zextByte_loByte]

/-- Settles O22: a byte write shares no storage with the pair's other byte, and a pair write is read in two halves. -/
theorem byteViewsAlias : Obligations.ByteViewsAlias := by
  refine ⟨?_, fun w view cell v => maskWrite_and_not_mask view cell v⟩
  rintro s v x pair hi lo (⟨⟨⟩⟩ | ⟨⟨⟩⟩ | ⟨⟨⟩⟩)
  · exact pair_byteViews s v x .bc
  · exact pair_byteViews s v x .de
  · exact pair_byteViews s v x .hl

/-- Settles O23: the laws of the multiplexer, put together. -/
theorem multiplexerReadsBackWrites : Obligations.MultiplexerReadsBackWrites := fun s r v =>
  ⟨s.readReg_writeReg_self r v, fun q h => s.readReg_writeReg_other r q v h,
    s.writeReg_f r v, s.writeReg_run r v, s.writeReg_mem r v⟩

/-- Settles O24: the mask, shifted down by its trailing zeros, is as many one-bits as it has. -/
theorem maskViewReadsBackWrites : Obligations.MaskViewReadsBackWrites := by
  intro w view cell v
  refine ⟨?_, maskWrite_and_not_mask view cell v⟩
  rw [maskRead_maskWrite, view.mask_ushiftRight_ctz]

/-- Settles O43: the write set of an instruction stays inside its row of R31's table. -/
theorem onlyListedRegistersAreWritten : Obligations.OnlyListedRegistersAreWritten := by
  intro i s t q ht hq
  obtain ⟨-, rfl⟩ | ⟨-, rfl⟩ := exec_cases ht
  · exact readReg_commit s fun r hr => hq r (writesOf_regs_subset i s hr)
  · exact readReg_raiseError s q

/-- Settles O44: the only flag write is that of an `ARITH`, under its own mask, and a fetch moves PC alone. -/
theorem onlyArithmeticWritesFlags : Obligations.OnlyArithmeticWritesFlags := by
  constructor
  · intro i s t k ht hk
    obtain ⟨-, rfl⟩ | ⟨-, rfl⟩ := exec_cases ht
    · exact commit_f_getLsbD s fun x hx => by rw [writesOf_flags hx, hk]
    · rfl
  · intro dec s
    obtain ⟨n, hn⟩ := fetchInsn_state dec s
    rw [hn, State.advance_f]

/-- Settles O46: the write set of such an instruction is the same whatever `F` holds, and holds no flag write. -/
theorem flagsDoNotLeak : Obligations.FlagsDoNotLeak := by
  intro i s t f hjumpOn hcond hadd hsub ht
  have hu : usesFlags i = false := by
    cases i with
    | jumpOn a g => exact absurd rfl (hjumpOn a g)
    | cond q j => exact absurd rfl (hcond q j)
    | arithAdd m dst o => exact absurd rfl (hadd m dst o)
    | arithSub m dst o => exact absurd rfl (hsub m dst o)
    | _ => rfl
  obtain ⟨hwf, rfl⟩ | ⟨hwf, rfl⟩ := exec_cases ht
  · rw [exec_of_wf (s := { s with f := f }) hwf, writesOf_withF hu,
      commit_withF s f (writesOf_flags_eq_none hu s)]
  · rw [exec_of_not_wf (s := { s with f := f }) hwf]
    rfl

/-- Settles O19: the reset memory is canonical, and its `F` is 0. -/
theorem resetStateMeetsInvariant : Obligations.ResetStateMeetsInvariant := by
  have hf : State.reset.f &&& ~~~State.reset.profile.fmask = 0x00#8 := by decide
  exact ⟨⟨State.reset_wf, hf⟩, rfl, rfl, hf⟩

end Sys2Proof.Machine
end

section
/-! SUPPORT. Laws of memory under instructions: which write set holds a memory write, what a STORE, a LOAD and a PUSH
come to, the bytes at PC after a store, and a pair through memory. -/

namespace Sys2Proof.Machine

/-! ## The memory write of a write set -/

/-- A commit leaves every byte alone but the one that its memory write, if it has one, addresses. -/
theorem readMem_commit_other {w : WriteSet} {b : Word} (s : State)
    (h : ∀ x, w.mem = some x → b ≠ x.1) : (commit w s).readMem b = s.readMem b := by
  unfold State.readMem
  rw [commit_mem]
  cases hw : w.mem with
  | none => rfl
  | some x => exact Memory.read_write_other fun he => h x hw (BitVec.eq_of_toNat_eq he)

/-- Only a `STORE` and a `PUSH`, bare or guarded, have a memory write, each at the address its rule gives
(43_load_store.md R126, 46_stack.md R131). -/
theorem writesOf_mem {i : Instr} {s : State} {x : Word × Byte} (h : (writesOf i s).mem = some x) :
    (∃ dst src, innermost i = .store dst src ∧ x = (s.resolveWord dst, s.resolveByte src)) ∨
      ∃ src, innermost i = .push src ∧ x = (s.sp - 1#16, s.resolveByte src) := by
  induction i with
  | cond q inner ih =>
    cases hq : s.holds q with
    | true => exact ih (by simpa [writesOf, hq] using h)
    | false => simp [writesOf, hq, noWrite] at h
  | jumpOn target g =>
    cases hg : s.flag g <;> simp [writesOf, jumpOnWrites, hg, noWrite, jumpWrites] at h
  | store dst src => cases h; exact .inl ⟨dst, src, rfl, rfl⟩
  | push src => cases h; exact .inr ⟨src, rfl, rfl⟩
  | _ => cases h

/-! ## What a well-formed `STORE`, `LOAD` and `PUSH` come to -/

theorem exec_store {dst src : Operand} {s : State} (h : (Instr.store dst src).wf s.profile = true) :
    exec (.store dst src) s = .next (s.writeMem (s.resolveWord dst) (s.resolveByte src)) :=
  exec_of_wf h

theorem exec_load {dst : Reg} {src : Operand} {s : State}
    (h : (Instr.load dst src).wf s.profile = true) :
    exec (.load dst src) s = .next (s.writeReg dst (s.resolve src).bits) :=
  exec_of_wf h

theorem exec_push {src : Operand} {s : State} (h : (Instr.push src).wf s.profile = true) :
    exec (.push src) s =
      .next { s.writeMem (s.sp - 1#16) (s.resolveByte src) with sp := s.sp - 1#16 } :=
  exec_of_wf h

/-! ## The bytes at PC after a store -/

theorem State.bytesAt_getElem? (s : State) {n k : Nat} (h : k < n) :
    (s.bytesAt n)[k]? = some (s.readMem (s.pc + BitVec.ofNat 16 k)) := by
  simp [State.bytesAt, h]

/-- Where a state differs from another by one byte stored, and not in PC, so do the bytes that fetches read
(20_memory.md R61). -/
theorem State.bytesAt_getElem?_of_writeMem {s t : State} {addr : Word} {v : Byte} {n k : Nat}
    (hs : Memory.wf s.mem = true) (hpc : t.pc = s.pc) (hmem : t.mem = (s.writeMem addr v).mem)
    (hk : k < n) :
    (t.bytesAt n)[k]? = some (
      if addr = s.pc + BitVec.ofNat 16 k then v else s.readMem (s.pc + BitVec.ofNat 16 k)) := by
  have hread (b : Word) : t.readMem b = if addr = b then v else s.readMem b := by
    rw [State.readMem, hmem, ← State.readMem, State.readMem_writeMem hs]
    simp only [eq_comm (a := b)]
  rw [State.bytesAt_getElem? t hk, hpc, hread]

/-! ## A run of terms, and a pair through memory -/

theorem execAll_cons {i : Instr} {s t : State} (rest : List Instr) (h : exec i s = .next t) :
    execAll (i :: rest) s = execAll rest t := by
  rw [execAll, h]

theorem Pair.width_hi (p : Pair) : p.hi.width = .w8 := by
  cases p <;> rfl

theorem Pair.width_lo (p : Pair) : p.lo.width = .w8 := by
  cases p <;> rfl

/-- A code that shares no storage with a pair shares none with either byte of it. -/
theorem Pair.overlaps_bytes_of_whole {p : Pair} {q : Reg} (h : overlaps p.whole q = false) :
    overlaps p.hi q = false ∧ overlaps p.lo q = false := by
  have hcell : (cellOf p.whole == cellOf q) = false := by
    cases p <;> simpa [overlaps, Pair.whole, selectorOf] using h
  have hhi : cellOf p.hi = cellOf p.whole := by cases p <;> rfl
  have hlo : cellOf p.lo = cellOf p.whole := by cases p <;> rfl
  simp [overlaps, hhi, hlo, hcell]

/-- A pair whose two bytes are written in turn is the word of these bytes (10_state.md R25). -/
theorem State.readReg_whole_writeReg_bytes (s : State) (p : Pair) (x y : Byte) :
    ((s.writeReg p.hi (zextByte x)).writeReg p.lo (zextByte y)).readReg p.whole = ofHiLo x y := by
  set t := (s.writeReg p.hi (zextByte x)).writeReg p.lo (zextByte y) with ht
  have hhi : hiByte (t.readReg p.whole) = x := by
    rw [← loByte_zextByte (hiByte _), ← State.readReg_hi, ht,
      State.readReg_writeReg_other _ _ _ _ p.overlaps_lo_hi, State.readReg_writeReg_self,
      if_pos p.width_hi, loByte_zextByte, loByte_zextByte]
  have hlo : loByte (t.readReg p.whole) = y := by
    rw [← loByte_zextByte (loByte _), ← State.readReg_lo, ht, State.readReg_writeReg_self,
      if_pos p.width_lo, loByte_zextByte, loByte_zextByte]
  rw [← ofHiLo_hiByte_loByte (t.readReg p.whole), hhi, hlo]

/-- A `STORE` of an 8-bit register at a literal address, as the head of a run. -/
theorem execAll_store_reg_cons {r : Reg} (hr : r.width = .w8) (addr : Word) (rest : List Instr)
    (s : State) :
    execAll (.store (.imm16 addr) (.reg r) :: rest) s =
      execAll rest (s.writeMem addr (loByte (s.readReg r))) :=
  execAll_cons rest (exec_store (by simp [Instr.wf, wfStoreDst, wfStoreSrc, wfInd,
    Operand.addressTyped, Operand.width, hr]))

/-- A `LOAD` of an 8-bit register from a literal address, as the head of a run. -/
theorem execAll_load_dir_cons {r : Reg} (hr : r.width = .w8) (addr : Word) (rest : List Instr)
    (s : State) :
    execAll (.load r (.dir addr) :: rest) s =
      execAll rest (s.writeReg r (zextByte (s.readMem addr))) :=
  execAll_cons rest (exec_load (by simp [Instr.wf, wfLoad, wfInd, Operand.width, hr]))

/-- Two loads give a pair the word of the two bytes they read, and no other register another value. -/
theorem execAll_loadPair (p : Pair) (a b : Word) (s : State) :
    ∃ t, execAll [.load p.hi (.dir a), .load p.lo (.dir b)] s = some t ∧
      t.readReg p.whole = ofHiLo (s.readMem a) (s.readMem b) ∧
      ∀ q : Reg, overlaps p.whole q = false → t.readReg q = s.readReg q := by
  refine ⟨(s.writeReg p.hi (zextByte (s.readMem a))).writeReg p.lo (zextByte (s.readMem b)), ?_,
    State.readReg_whole_writeReg_bytes s p _ _, fun q hq => ?_⟩
  · rw [execAll_load_dir_cons p.width_hi, execAll_load_dir_cons p.width_lo,
      State.readMem_writeReg, execAll]
  · obtain ⟨hhi, hlo⟩ := Pair.overlaps_bytes_of_whole hq
    rw [State.readReg_writeReg_other _ _ _ _ hlo, State.readReg_writeReg_other _ _ _ _ hhi]

/-- As `execAll_loadPair`, where memory holds the two bytes of `v` and the registers are those of another state: the one
before the bytes were stored. -/
theorem execAll_loadPair_of_bytes {s u : State} {a b v : Word} (p : Pair)
    (ha : u.readMem a = hiByte v) (hb : u.readMem b = loByte v)
    (hreg : ∀ q : Reg, u.readReg q = s.readReg q) :
    ∃ t, execAll [.load p.hi (.dir a), .load p.lo (.dir b)] u = some t ∧
      t.readReg p.whole = v ∧
      ∀ q : Reg, overlaps p.whole q = false → t.readReg q = s.readReg q := by
  obtain ⟨t, ht, hwhole, hframe⟩ := execAll_loadPair p a b u
  refine ⟨t, ht, ?_, fun q hq => (hframe q hq).trans (hreg q)⟩
  rw [hwhole, ha, hb, ofHiLo_hiByte_loByte]

/-- Two bytes stored at different addresses both read back. -/
theorem State.readMem_writeMem_writeMem {s : State} (hs : Memory.wf s.mem = true) {a b : Word}
    (hab : a ≠ b) (x y : Byte) :
    ((s.writeMem a x).writeMem b y).readMem a = x ∧
      ((s.writeMem a x).writeMem b y).readMem b = y := by
  simp [State.readMem_writeMem (State.writeMem_wf hs a x), State.readMem_writeMem hs, hab]

end Sys2Proof.Machine
end

section
/-! SUPPORT. The statements about memory: who writes it, what a fetch sees of a store, and a pair
through memory. -/

namespace Sys2Proof.Machine

/-- Settles O45: a commit writes memory only where the write set says, and a memory write in an instruction's write set
is that of its `STORE` or `PUSH`. -/
theorem onlyStoreAndPushWriteMemory : Obligations.OnlyStoreAndPushWriteMemory := by
  intro i s t b ht hstore hpush
  obtain ⟨-, rfl⟩ | ⟨-, rfl⟩ := exec_cases ht
  · refine readMem_commit_other s fun x hx => ?_
    obtain ⟨dst, src, hi, rfl⟩ | ⟨src, hi, rfl⟩ := writesOf_mem hx
    · exact hstore dst src hi
    · exact hpush src hi
  · rfl

/-- Settles O47: each of the two ends in a state that differs from the old one by the byte stored, and not in PC. -/
theorem storeIsSeenByNextFetch : Obligations.StoreIsSeenByNextFetch := by
  rintro s ⟨hmem, -⟩
  constructor
  · intro dst src hwf
    exact ⟨_, exec_store hwf, rfl, fun _ _ hk =>
      State.bytesAt_getElem?_of_writeMem hmem rfl rfl hk⟩
  · intro src hwf
    exact ⟨_, exec_push hwf, rfl, fun _ _ hk =>
      State.bytesAt_getElem?_of_writeMem hmem rfl rfl hk⟩

/-- Settles O49: in either order the two stores leave the pair's bytes at the two addresses and every register as it
was, and the loads put them together again. -/
theorem pairThroughMemoryIsUnchanged : Obligations.PairThroughMemoryIsUnchanged := by
  rintro rp rq a b s ⟨hmem, -⟩ hab
  simp only [execAll_store_reg_cons rp.width_hi, execAll_store_reg_cons rp.width_lo,
    State.readReg_writeMem, State.readReg_hi, State.readReg_lo, loByte_zextByte]
  constructor
  · obtain ⟨ha, hb⟩ := State.readMem_writeMem_writeMem hmem hab
      (hiByte (s.readReg rp.whole)) (loByte (s.readReg rp.whole))
    exact execAll_loadPair_of_bytes rq ha hb fun q => by simp only [State.readReg_writeMem]
  · obtain ⟨hb, ha⟩ := State.readMem_writeMem_writeMem hmem hab.symm
      (loByte (s.readReg rp.whole)) (hiByte (s.readReg rp.whole))
    exact execAll_loadPair_of_bytes rq ha hb fun q => by simp only [State.readReg_writeMem]

end Sys2Proof.Machine
end

section
/-! SUPPORT. Laws of the descriptor transport: which tags begin a descriptor and how the parser goes on behind each,
that the parser inverts the encoder, and that bytes added at the end change no answer but "more". -/

namespace Sys2Proof

open Sys2Proof.Machine

/-! ## Parsers that go on with one another -/

theorem Parse.bind_eq_done {α β : Type} {q : Parse α} {k : α → List Byte → Parse β} {w : β}
    {rest : List Byte} :
    q.bind k = .done w rest ↔ ∃ v rest', q = .done v rest' ∧ k v rest' = .done w rest := by
  cases q <;> simp [Parse.bind]

theorem Parse.map_eq_done {α β : Type} {q : Parse α} {f : α → β} {w : β} {rest : List Byte} :
    q.map f = .done w rest ↔ ∃ v, q = .done v rest ∧ f v = w := by
  cases q <;> simp [Parse.map, Parse.bind, and_comm]

@[simp] theorem Parse.map_done {α β : Type} (f : α → β) (v : α) (rest : List Byte) :
    (Parse.done v rest).map f = .done (f v) rest := rfl

@[simp] theorem Parse.map_bad {α β : Type} (f : α → β) (e : DecodeError) :
    (Parse.bad e : Parse α).map f = .bad e := rfl

@[simp] theorem Parse.bind_done {α β : Type} (k : α → List Byte → Parse β) (v : α)
    (rest : List Byte) : (Parse.done v rest).bind k = k v rest := rfl

@[simp] theorem Parse.bind_bad {α β : Type} (k : α → List Byte → Parse β) (e : DecodeError) :
    (Parse.bad e : Parse α).bind k = .bad e := rfl

/-! ## What a tag byte is -/

/-- The tags at which the parser goes on: the rows of the opcode map (30_encoding.md R77) with a register or flag that
the profile has in their low bits. -/
inductive TagForm (p : FlagProfile) : Byte → Prop
  | nop : TagForm p 0x00#8
  | load (dst : Reg) : TagForm p (withReg 0x10#8 dst)
  | store : TagForm p 0x20#8
  | arithAdd : TagForm p 0x30#8
  | arithSub : TagForm p 0x31#8
  | jump : TagForm p 0x40#8
  | jumpOn {g : Flag} (hg : wfFlag p g = true) : TagForm p (0x50#8 ||| BitVec.ofNat 8 g.pos)
  | push : TagForm p 0x60#8
  | pop (dst : Reg) : TagForm p (withReg 0x70#8 dst)
  | cond {q : Pred} {tag : Byte} (hq : wfPred p q = true) (htag : encodePred q = some tag) :
    TagForm p tag
  | halt : TagForm p 0xF0#8

/-- The tag of a row without a field in it. -/
theorem tag_of_opcodeOf? {tag : Byte} :
    (opcodeOf? tag = some .nop → tag = 0x00#8) ∧ (opcodeOf? tag = some .store → tag = 0x20#8) ∧
    (opcodeOf? tag = some .arithAdd → tag = 0x30#8) ∧
    (opcodeOf? tag = some .arithSub → tag = 0x31#8) ∧
    (opcodeOf? tag = some .jump → tag = 0x40#8) ∧ (opcodeOf? tag = some .push → tag = 0x60#8) ∧
    (opcodeOf? tag = some .halt → tag = 0xF0#8) := by
  revert tag
  decide

/-- The tag of a row with a register code in it. -/
theorem tag_of_opcodeOf?_reg {tag : Byte} {r : Reg} (hr : Reg.ofCode? (loNibble tag) = some r) :
    (opcodeOf? tag = some .load → tag = withReg 0x10#8 r) ∧
    (opcodeOf? tag = some .pop → tag = withReg 0x70#8 r) := by
  unfold withReg
  rw [Reg.code_of_ofCode? hr]
  clear hr
  revert tag
  decide

/-- A flag that an index names is the profile's, and the index is its position (30_encoding.md R73). -/
theorem Flag.of_ofIndex? {p : FlagProfile} {index : BitVec 3} {g : Flag}
    (h : Flag.ofIndex? p index = some g) :
    wfFlag p g = true ∧ BitVec.ofNat 8 g.pos = index.setWidth 8 := by
  revert index g
  cases p <;> decide

theorem Flag.ofIndex?_pos {p : FlagProfile} {g : Flag} (h : wfFlag p g = true) :
    Flag.ofIndex? p (BitVec.ofNat 3 g.pos) = some g := by
  revert h
  cases p <;> cases g <;> decide

theorem Flag.flagField_tag (g : Flag) :
    flagField (0x50#8 ||| BitVec.ofNat 8 g.pos) = BitVec.ofNat 3 g.pos ∧
    flagField (0x80#8 ||| BitVec.ofNat 8 g.pos) = BitVec.ofNat 3 g.pos ∧
    flagField (0x88#8 ||| BitVec.ofNat 8 g.pos) = BitVec.ofNat 3 g.pos := by
  cases g <;> decide

/-- The tag of a row with a flag index in it. -/
theorem tag_of_opcodeOf?_flag {p : FlagProfile} {tag : Byte} {g : Flag}
    (hg : Flag.ofIndex? p (flagField tag) = some g) :
    (opcodeOf? tag = some .jumpOn → tag = 0x50#8 ||| BitVec.ofNat 8 g.pos) ∧
    (opcodeOf? tag = some .cond → encodePred (tagPred tag g) = some tag) := by
  have hsplit : (opcodeOf? tag = some .jumpOn → tag = 0x50#8 ||| (flagField tag).setWidth 8) ∧
      (opcodeOf? tag = some .cond →
        tag = (if tag.getLsbD 3 then 0x88#8 else 0x80#8) ||| (flagField tag).setWidth 8) := by
    clear hg
    revert tag
    decide
  rw [← (Flag.of_ofIndex? hg).2] at hsplit
  refine ⟨hsplit.1, fun hop => ?_⟩
  have htag := hsplit.2 hop
  unfold tagPred
  split at htag
  · rw [if_pos ‹_›, encodePred, ← htag]
  · rw [if_neg ‹_›, encodePred, ← htag]

/-- The tag of a well-formed guard names its flag and its polarity. -/
theorem tagPred_of_encodePred {p : FlagProfile} {q : Pred} {tag : Byte} (hq : wfPred p q = true)
    (htag : encodePred q = some tag) :
    ∃ g, Flag.ofIndex? p (flagField tag) = some g ∧ tagPred tag g = q := by
  cases q with
  | fset g =>
    cases htag
    exact ⟨g, by rw [g.flagField_tag.2.2, Flag.ofIndex?_pos hq], by cases g <;> rfl⟩
  | fclr g =>
    cases htag
    exact ⟨g, by rw [g.flagField_tag.2.1, Flag.ofIndex?_pos hq], by cases g <;> rfl⟩
  | ext k => cases htag

/-- A tag that no row has, or one whose field the row reserves, is among the refused first bytes. -/
theorem refusedTag_of_opcodeOf? {tag : Byte} (p : FlagProfile) :
    (opcodeOf? tag = none → refusedTag p tag.toNat = true) ∧
    (opcodeOf? tag = some .load ∨ opcodeOf? tag = some .pop → Reg.ofCode? (loNibble tag) = none →
      refusedTag p tag.toNat = true) ∧
    (opcodeOf? tag = some .jumpOn ∨ opcodeOf? tag = some .cond →
      Flag.ofIndex? p (flagField tag) = none → refusedTag p tag.toNat = true) := by
  revert tag
  cases p <;> decide

/-- The tag is a refused first byte, and the parser ends at it, whatever follows. -/
def TagRefused (p : FlagProfile) (tag : Byte) : Prop :=
  refusedTag p tag.toNat = true ∧ ∃ e, ∀ rest, parseInstr p (tag :: rest) = .bad e

theorem tagRefused_of_row {p : FlagProfile} {tag : Byte} (hop : opcodeOf? tag = none) :
    TagRefused p tag :=
  ⟨(refusedTag_of_opcodeOf? p).1 hop, .reservedTag, fun rest => by rw [parseInstr, hop]⟩

theorem tagRefused_of_reg {p : FlagProfile} {tag : Byte}
    (hop : opcodeOf? tag = some .load ∨ opcodeOf? tag = some .pop)
    (hr : Reg.ofCode? (loNibble tag) = none) : TagRefused p tag := by
  refine ⟨(refusedTag_of_opcodeOf? p).2.1 hop hr, .reservedRegister, fun rest => ?_⟩
  obtain hop | hop := hop <;> simp [parseInstr, hop, parseTagReg, hr]

theorem tagRefused_of_flag {p : FlagProfile} {tag : Byte}
    (hop : opcodeOf? tag = some .jumpOn ∨ opcodeOf? tag = some .cond)
    (hg : Flag.ofIndex? p (flagField tag) = none) : TagRefused p tag := by
  refine ⟨(refusedTag_of_opcodeOf? p).2.2 hop hg, .reservedFlag, fun rest => ?_⟩
  obtain hop | hop := hop <;> simp [parseInstr, hop, parseTagFlag, hg]

/-- Each byte is a tag at which the parser goes on, or one of the refused first bytes, where it ends. -/
theorem tagForm_or_refused (p : FlagProfile) (tag : Byte) : TagForm p tag ∨ TagRefused p tag := by
  obtain ⟨hnop, hstore, hadd, hsub, hjump, hpush, hhalt⟩ := tag_of_opcodeOf? (tag := tag)
  cases hop : opcodeOf? tag with
  | none => exact .inr (tagRefused_of_row hop)
  | some op =>
    cases op with
    | nop => exact .inl (hnop hop ▸ .nop)
    | store => exact .inl (hstore hop ▸ .store)
    | arithAdd => exact .inl (hadd hop ▸ .arithAdd)
    | arithSub => exact .inl (hsub hop ▸ .arithSub)
    | jump => exact .inl (hjump hop ▸ .jump)
    | push => exact .inl (hpush hop ▸ .push)
    | halt => exact .inl (hhalt hop ▸ .halt)
    | load =>
      cases hr : Reg.ofCode? (loNibble tag) with
      | none => exact .inr (tagRefused_of_reg (.inl hop) hr)
      | some r => exact .inl ((tag_of_opcodeOf?_reg hr).1 hop ▸ .load r)
    | pop =>
      cases hr : Reg.ofCode? (loNibble tag) with
      | none => exact .inr (tagRefused_of_reg (.inr hop) hr)
      | some r => exact .inl ((tag_of_opcodeOf?_reg hr).2 hop ▸ .pop r)
    | jumpOn =>
      cases hg : Flag.ofIndex? p (flagField tag) with
      | none => exact .inr (tagRefused_of_flag (.inl hop) hg)
      | some g => exact .inl ((tag_of_opcodeOf?_flag hg).1 hop ▸ .jumpOn (Flag.of_ofIndex? hg).1)
    | cond =>
      cases hg : Flag.ofIndex? p (flagField tag) with
      | none => exact .inr (tagRefused_of_flag (.inr hop) hg)
      | some g =>
        refine .inl (.cond ?_ ((tag_of_opcodeOf?_flag hg).2 hop))
        unfold tagPred
        split <;> exact (Flag.of_ofIndex? hg).1

/-! ## How the parser goes on behind a tag -/

section
variable (p : FlagProfile) (rest : List Byte)

theorem parseInstr_nop : parseInstr p (0x00#8 :: rest) = .done .nop rest := rfl

theorem parseInstr_load (dst : Reg) :
    parseInstr p (withReg 0x10#8 dst :: rest) = (parseOperand rest).map (.load dst) := by
  cases dst <;> rfl

theorem parseInstr_store :
    parseInstr p (0x20#8 :: rest) =
      (parseOperand rest).bind fun dst rest' => (parseOperand rest').map (.store dst) := rfl

theorem parseInstr_arithAdd : parseInstr p (0x30#8 :: rest) = parseArith .arithAdd rest := rfl

theorem parseInstr_arithSub : parseInstr p (0x31#8 :: rest) = parseArith .arithSub rest := rfl

theorem parseInstr_jump : parseInstr p (0x40#8 :: rest) = (parseWord rest).map .jump := rfl

theorem parseInstr_push : parseInstr p (0x60#8 :: rest) = (parseOperand rest).map .push := rfl

theorem parseInstr_pop (dst : Reg) :
    parseInstr p (withReg 0x70#8 dst :: rest) = .done (.pop dst) rest := by
  cases dst <;> rfl

theorem parseInstr_halt : parseInstr p (0xF0#8 :: rest) = .done .halt rest := rfl

variable {p}

theorem parseInstr_jumpOn {g : Flag} (hg : wfFlag p g = true) :
    parseInstr p ((0x50#8 ||| BitVec.ofNat 8 g.pos) :: rest) =
      (parseWord rest).map fun a => .jumpOn a g := by
  simp [parseInstr, opcodeOf?_jumpOn, parseTagFlag, g.flagField_tag.1, Flag.ofIndex?_pos hg]

theorem parseInstr_cond {q : Pred} {tag : Byte} (hq : wfPred p q = true)
    (htag : encodePred q = some tag) :
    parseInstr p (tag :: rest) = (parseInstr p rest).map (.cond q) := by
  obtain ⟨g, hg, rfl⟩ := tagPred_of_encodePred hq htag
  simp [parseInstr, opcodeOf?_cond htag, hg]

theorem parseArithDst_withReg (dst : Reg) :
    parseArithDst (withReg 0x00#8 dst :: rest) = .done dst rest := by
  cases dst <;> rfl

theorem parseArith_withReg (mk : Byte → Reg → Operand → Instr) (m : Byte) (dst : Reg) :
    parseArith mk (m :: withReg 0x00#8 dst :: rest) = (parseOperand rest).map (mk m dst) := by
  simp [parseArith, parseArithDst_withReg]

end

/-! ## The parser inverts the encoder -/

theorem encode_cond_eq_some {q : Pred} {inner : Instr} {bs : List Byte} :
    encode (.cond q inner) = some bs ↔
      ∃ tag bytes, encodePred q = some tag ∧ encode inner = some bytes ∧ tag :: bytes = bs := by
  cases hq : encodePred q <;> cases hi : encode inner <;> simp [encode, hq, hi]

/-- A well-formed term is read back from its descriptor, whatever bytes follow it. -/
theorem parseInstr_encode {p : FlagProfile} {i : Instr} {bs : List Byte} (rest : List Byte)
    (hwf : i.wf p = true) (henc : encode i = some bs) : parseInstr p (bs ++ rest) = .done i rest := by
  induction i generalizing bs with
  | nop => cases henc; exact parseInstr_nop p rest
  | load dst src =>
    cases henc
    rw [List.cons_append, parseInstr_load, parseOperand_encodeOperand, Parse.map_done]
  | store dst src =>
    cases henc
    simp only [List.cons_append, List.append_assoc, parseInstr_store, parseOperand_encodeOperand,
      Parse.bind_done, Parse.map_done]
  | arithAdd mask dst rhs =>
    cases henc
    simp only [List.cons_append, parseInstr_arithAdd, parseArith_withReg,
      parseOperand_encodeOperand, Parse.map_done]
  | arithSub mask dst rhs =>
    cases henc
    simp only [List.cons_append, parseInstr_arithSub, parseArith_withReg,
      parseOperand_encodeOperand, Parse.map_done]
  | jump target =>
    cases henc
    simp only [List.cons_append, List.nil_append, parseInstr_jump, parseWord_bytes, Parse.map_done]
  | jumpOn target g =>
    cases henc
    simp only [List.cons_append, List.nil_append, parseInstr_jumpOn _ hwf, parseWord_bytes,
      Parse.map_done]
  | push src =>
    cases henc
    rw [List.cons_append, parseInstr_push, parseOperand_encodeOperand, Parse.map_done]
  | pop dst => cases henc; exact parseInstr_pop p rest dst
  | cond q inner ih =>
    simp only [Instr.wf, Bool.and_eq_true] at hwf
    obtain ⟨hq, hinner⟩ := hwf
    obtain ⟨tag, bytes, htag, hbytes, rfl⟩ := encode_cond_eq_some.mp henc
    rw [List.cons_append, parseInstr_cond _ hq htag, ih hinner hbytes, Parse.map_done]
  | halt => cases henc; exact parseInstr_halt p rest

@[simp] theorem loByte_ofHiLo (hi lo : Byte) : loByte (ofHiLo hi lo) = lo :=
  BitVec.extractLsb'_append_eq_right

@[simp] theorem hiByte_ofHiLo (hi lo : Byte) : hiByte (ofHiLo hi lo) = hi :=
  BitVec.extractLsb'_append_eq_left

theorem eq_of_parseWord {bs rest : List Byte} {v : Word} (h : parseWord bs = .done v rest) :
    bs = loByte v :: hiByte v :: rest := by
  match bs with
  | lo :: hi :: tl =>
    cases h
    rw [loByte_ofHiLo, hiByte_ofHiLo]
  | [_] => cases h
  | [] => cases h

/-- The operand-descriptor byte that a form stands for (30_encoding.md R75). -/
def OperandForm.tag : OperandForm → Byte
  | .imm8 => 0x00#8
  | .imm16 => 0x20#8
  | .reg r => withReg 0x40#8 r
  | .dir => 0x80#8
  | .ind r => withReg 0xC0#8 r

theorem OperandForm.tag_of_operandForm {od : Byte} {form : OperandForm}
    (h : operandForm od = .ok form) : form.tag = od := by
  have hall : ∀ od : Byte, (operandForm od).toOption.all (·.tag == od) = true := by decide
  simpa [h, Except.toOption] using hall od

theorem eq_of_parseOperand {bs rest : List Byte} {op : Operand}
    (h : parseOperand bs = .done op rest) : bs = encodeOperand op ++ rest := by
  match bs with
  | [] => cases h
  | od :: tl =>
    cases hform : operandForm od with
    | error e => simp [parseOperand, hform] at h
    | ok form =>
      obtain rfl := OperandForm.tag_of_operandForm hform
      cases form with
      | imm8 =>
        cases tl with
        | nil => cases h
        | cons n tl => cases h; rfl
      | imm16 =>
        obtain ⟨v, hv, rfl⟩ := Parse.map_eq_done.mp h
        rw [eq_of_parseWord hv]
        rfl
      | reg r =>
        simp only [parseOperand, hform] at h
        cases h
        rfl
      | dir =>
        obtain ⟨v, hv, rfl⟩ := Parse.map_eq_done.mp h
        rw [eq_of_parseWord hv]
        rfl
      | ind r =>
        simp only [parseOperand, hform] at h
        cases h
        rfl

theorem eq_of_parseArithDst {bs rest : List Byte} {dst : Reg}
    (h : parseArithDst bs = .done dst rest) : bs = withReg 0x00#8 dst :: rest := by
  match bs with
  | [] => cases h
  | d :: tl =>
    have hbyte : ∀ d : Byte, hiNibble d = 0x0#4 → d = 0x00#8 ||| (loNibble d).setWidth 8 := by
      decide
    rw [parseArithDst] at h
    split at h
    · cases hr : Reg.ofCode? (loNibble d) with
      | none => simp [hr] at h
      | some r =>
        simp only [hr] at h
        cases h
        rw [withReg, Reg.code_of_ofCode? hr, ← hbyte d ‹_›]
    · cases h

theorem eq_of_parseArith {mk : Byte → Reg → Operand → Instr} {bs rest : List Byte} {i : Instr}
    (h : parseArith mk bs = .done i rest) :
    ∃ m dst rhs, i = mk m dst rhs ∧
      bs = m :: withReg 0x00#8 dst :: (encodeOperand rhs ++ rest) := by
  match bs with
  | [] => cases h
  | m :: tl =>
    obtain ⟨dst, tl', hdst, hrhs⟩ := Parse.bind_eq_done.mp h
    obtain ⟨rhs, hop, rfl⟩ := Parse.map_eq_done.mp hrhs
    exact ⟨m, dst, rhs, rfl, by rw [eq_of_parseArithDst hdst, eq_of_parseOperand hop]⟩

/-- What the parser has read of a term is the term's descriptor. -/
theorem eq_of_parseInstr {p : FlagProfile} {bs rest : List Byte} {i : Instr}
    (h : parseInstr p bs = .done i rest) : ∃ ds, encode i = some ds ∧ bs = ds ++ rest := by
  induction bs generalizing i with
  | nil => cases h
  | cons tag tl ih =>
    obtain htag | ⟨-, e, hbad⟩ := tagForm_or_refused p tag
    · cases htag with
      | nop => cases h; exact ⟨_, rfl, rfl⟩
      | load dst =>
        rw [parseInstr_load] at h
        obtain ⟨src, hsrc, rfl⟩ := Parse.map_eq_done.mp h
        exact ⟨_, rfl, by rw [eq_of_parseOperand hsrc]; rfl⟩
      | store =>
        obtain ⟨dst, tl', hdst, h'⟩ := Parse.bind_eq_done.mp h
        obtain ⟨src, hsrc, rfl⟩ := Parse.map_eq_done.mp h'
        exact ⟨_, rfl, by rw [eq_of_parseOperand hdst, eq_of_parseOperand hsrc]; simp⟩
      | arithAdd =>
        obtain ⟨m, dst, rhs, rfl, rfl⟩ := eq_of_parseArith h
        exact ⟨_, rfl, rfl⟩
      | arithSub =>
        obtain ⟨m, dst, rhs, rfl, rfl⟩ := eq_of_parseArith h
        exact ⟨_, rfl, rfl⟩
      | jump =>
        obtain ⟨v, hv, rfl⟩ := Parse.map_eq_done.mp h
        exact ⟨_, rfl, by rw [eq_of_parseWord hv]; rfl⟩
      | jumpOn hg =>
        rw [parseInstr_jumpOn _ hg] at h
        obtain ⟨v, hv, rfl⟩ := Parse.map_eq_done.mp h
        exact ⟨_, rfl, by rw [eq_of_parseWord hv]; rfl⟩
      | push =>
        obtain ⟨src, hsrc, rfl⟩ := Parse.map_eq_done.mp h
        exact ⟨_, rfl, by rw [eq_of_parseOperand hsrc]; rfl⟩
      | pop dst =>
        rw [parseInstr_pop] at h
        cases h
        exact ⟨_, rfl, rfl⟩
      | cond hq htag =>
        rw [parseInstr_cond _ hq htag] at h
        obtain ⟨inner, hinner, rfl⟩ := Parse.map_eq_done.mp h
        obtain ⟨ds, hds, rfl⟩ := ih hinner
        exact ⟨tag :: ds, encode_cond_eq_some.mpr ⟨tag, ds, htag, hds, rfl⟩, rfl⟩
      | halt => cases h; exact ⟨_, rfl, rfl⟩
    · rw [hbad tl] at h
      cases h

/-! ## Bytes added at the end -/

/-- The answer with bytes added behind those still to parse. -/
def Parse.append {α : Type} (q : Parse α) (ys : List Byte) : Parse α :=
  match q with
  | .done v rest => .done v (rest ++ ys)
  | .more => .more
  | .bad e => .bad e

/-- Bytes added at the end change no answer of the parser but "more", and leave it the rest of them to parse. -/
def LeftToRight {α : Type} (f : List Byte → Parse α) : Prop :=
  ∀ xs ys, f xs ≠ .more → f (xs ++ ys) = (f xs).append ys

theorem LeftToRight.bind {α β : Type} {f : List Byte → Parse α} {k : α → List Byte → Parse β}
    (hf : LeftToRight f) (hk : ∀ v, LeftToRight (k v)) : LeftToRight fun xs => (f xs).bind k := by
  intro xs ys h
  cases hx : f xs with
  | done v rest =>
    have happ : f (xs ++ ys) = .done v (rest ++ ys) := by rw [hf xs ys (by simp [hx]), hx]; rfl
    simp only [hx, happ, Parse.bind_done] at h ⊢
    exact hk v rest ys h
  | more => simp [hx, Parse.bind] at h
  | bad e => simp [hf xs ys (by simp [hx]), hx, Parse.append]

theorem LeftToRight.map {α β : Type} {f : List Byte → Parse α} (hf : LeftToRight f) (g : α → β) :
    LeftToRight fun xs => (f xs).map g :=
  hf.bind fun _ _ _ _ => rfl

theorem leftToRight_parseWord : LeftToRight parseWord := by
  intro xs ys h
  match xs with
  | _ :: _ :: _ => rfl
  | [_] => exact absurd rfl h
  | [] => exact absurd rfl h

theorem leftToRight_parseOperand : LeftToRight parseOperand := by
  intro xs ys h
  match xs with
  | [] => exact absurd rfl h
  | od :: tl =>
    rw [List.cons_append]
    cases hform : operandForm od with
    | error e => simp only [parseOperand, hform, Parse.append]
    | ok form =>
      cases form with
      | imm8 =>
        cases tl with
        | nil => simp [parseOperand, hform] at h
        | cons n tl => simp [parseOperand, hform, Parse.append]
      | imm16 =>
        simp only [parseOperand, hform] at h ⊢
        exact leftToRight_parseWord.map _ tl ys h
      | reg r => simp only [parseOperand, hform, Parse.append]
      | dir =>
        simp only [parseOperand, hform] at h ⊢
        exact leftToRight_parseWord.map _ tl ys h
      | ind r => simp only [parseOperand, hform, Parse.append]

theorem leftToRight_parseArithDst : LeftToRight parseArithDst := by
  intro xs ys h
  match xs with
  | [] => exact absurd rfl h
  | d :: tl =>
    simp only [List.cons_append, parseArithDst]
    split
    · cases Reg.ofCode? (loNibble d) <;> rfl
    · rfl

theorem leftToRight_parseArith (mk : Byte → Reg → Operand → Instr) :
    LeftToRight (parseArith mk) := by
  intro xs ys h
  match xs with
  | [] => exact absurd rfl h
  | m :: tl =>
    exact leftToRight_parseArithDst.bind (fun _ => leftToRight_parseOperand.map _) tl ys h

theorem leftToRight_parseInstr (p : FlagProfile) : LeftToRight (parseInstr p) := by
  intro xs ys h
  induction xs with
  | nil => exact absurd rfl h
  | cons tag tl ih =>
    rw [List.cons_append]
    obtain htag | ⟨-, e, hbad⟩ := tagForm_or_refused p tag
    · cases htag with
      | nop => rfl
      | load dst =>
        simp only [parseInstr_load] at h ⊢
        exact leftToRight_parseOperand.map _ tl ys h
      | store =>
        exact leftToRight_parseOperand.bind (fun _ => leftToRight_parseOperand.map _) tl ys h
      | arithAdd => exact leftToRight_parseArith _ tl ys h
      | arithSub => exact leftToRight_parseArith _ tl ys h
      | jump => exact leftToRight_parseWord.map _ tl ys h
      | jumpOn hg =>
        simp only [parseInstr_jumpOn _ hg] at h ⊢
        exact leftToRight_parseWord.map _ tl ys h
      | push => exact leftToRight_parseOperand.map _ tl ys h
      | pop dst => rw [parseInstr_pop, parseInstr_pop]; rfl
      | cond hq htag =>
        simp only [parseInstr_cond _ hq htag] at h ⊢
        have hinner : parseInstr p tl ≠ .more := fun hmore => h (by rw [hmore]; rfl)
        rw [ih hinner]
        cases parseInstr p tl <;> rfl
      | halt => rfl
    · rw [hbad, hbad]
      rfl

/-- Before its last byte a descriptor is neither complete nor refused. -/
theorem parseInstr_take {p : FlagProfile} {bs : List Byte} {i : Instr} {k : Nat}
    (h : parseInstr p bs = .done i []) (hk : k < bs.length) : parseInstr p (bs.take k) = .more := by
  by_contra hne
  have happ := leftToRight_parseInstr p (bs.take k) (bs.drop k) hne
  rw [List.take_append_drop, h] at happ
  cases hq : parseInstr p (bs.take k) with
  | done j rest =>
    simp [hq, Parse.append] at happ
    omega
  | more => exact hne hq
  | bad e => simp [hq, Parse.append] at happ

/-! ## The answers of the decoder -/

theorem descDecode_eq_instr_iff {p : FlagProfile} {bs : List Byte} {i : Instr} :
    descDecode p bs = .instr i ↔
      parseInstr p bs = .done i [] ∧ bs.length ≤ Config.maxInsnLen ∧ i.wf p = true := by
  unfold descDecode
  cases parseInstr p bs with
  | more => by_cases hlen : bs.length < Config.maxInsnLen <;> simp [hlen]
  | bad e => simp
  | done j rest =>
    simp only [ne_eq, ite_not, Parse.done.injEq]
    constructor
    · intro h
      split_ifs at h with hrest hlen hwf
      cases h
      exact ⟨⟨rfl, hrest⟩, Nat.not_lt.mp hlen, hwf⟩
    · rintro ⟨⟨rfl, rfl⟩, hlen, hwf⟩
      simp [Nat.not_lt.mpr hlen, hwf]

theorem descDecode_of_bad {p : FlagProfile} {bs : List Byte} {e : DecodeError}
    (h : parseInstr p bs = .bad e) : descDecode p bs = .invalid e := by
  rw [descDecode, h]

theorem exists_descDecode_invalid_of_not_wf {p : FlagProfile} {bs rest : List Byte} {i : Instr}
    (h : parseInstr p bs = .done i rest) (hwf : i.wf p = false) :
    ∃ e, descDecode p bs = .invalid e := by
  simp only [descDecode, h, hwf, Bool.false_eq_true, if_false]
  split_ifs <;> exact ⟨_, rfl⟩

theorem descDecode_of_more {p : FlagProfile} {bs : List Byte} (h : parseInstr p bs = .more)
    (hlen : bs.length < Config.maxInsnLen) : descDecode p bs = .needMore := by
  rw [descDecode, h]
  exact if_pos hlen

/-! ## Refused bytes -/

theorem refusedTag_load (p : FlagProfile) (dst : Reg) :
    refusedTag p (withReg 0x10#8 dst).toNat = false := by
  cases p <;> cases dst <;> decide

/-- A `POP` tag is refused where its code is a 16-bit one (46_stack.md R132). -/
theorem refusedTag_pop (p : FlagProfile) (dst : Reg) :
    refusedTag p (withReg 0x70#8 dst).toNat = (dst.width == .w16) := by
  cases p <;> cases dst <;> decide

theorem withReg_pop_toNat {dst : Reg} (h : dst.width = .w16) :
    ¬((withReg 0x70#8 dst).toNat < 0x78 ∨ 0x7C < (withReg 0x70#8 dst).toNat) := by
  revert h
  cases dst <;> decide

theorem refusedTag_jumpOn {p : FlagProfile} {g : Flag} (hg : wfFlag p g = true) :
    refusedTag p (0x50#8 ||| BitVec.ofNat 8 g.pos).toNat = false := by
  revert hg
  cases p <;> cases g <;> decide

theorem refusedTag_cond {p : FlagProfile} {q : Pred} {tag : Byte} (hq : wfPred p q = true)
    (htag : encodePred q = some tag) : refusedTag p tag.toNat = false := by
  cases q with
  | fset g =>
    cases htag
    revert hq
    cases p <;> cases g <;> decide
  | fclr g =>
    cases htag
    revert hq
    cases p <;> cases g <;> decide
  | ext k => cases htag

/-- The one refused first byte at which the parser goes on is a `POP` tag of a 16-bit code. -/
theorem TagForm.eq_pop_of_refused {p : FlagProfile} {tag : Byte} (h : TagForm p tag)
    (href : refusedTag p tag.toNat = true) :
    ∃ dst : Reg, tag = withReg 0x70#8 dst ∧ dst.width = .w16 := by
  cases h with
  | nop | store | arithAdd | arithSub | jump | push | halt =>
    exact absurd href (by cases p <;> decide)
  | load dst => exact absurd href (by rw [refusedTag_load]; decide)
  | jumpOn hg => exact absurd href (by rw [refusedTag_jumpOn hg]; decide)
  | pop dst => exact ⟨dst, rfl, by simpa [refusedTag_pop] using href⟩
  | cond hq htag => exact absurd href (by rw [refusedTag_cond hq htag]; decide)

/-- Every other tag begins the descriptor of a well-formed term. -/
theorem TagForm.exists_wf_encode {p : FlagProfile} {tag : Byte} (h : TagForm p tag)
    (href : refusedTag p tag.toNat = false) :
    ∃ rest i, i.wf p = true ∧ encode i = some (tag :: rest) ∧
      (tag :: rest).length ≤ Config.maxInsnLen := by
  cases h with
  | nop => exact ⟨_, .nop, rfl, rfl, by decide⟩
  | load dst =>
    exact ⟨_, .load dst (.reg dst), by simp [Instr.wf, wfLoad, wfInd, Operand.width], rfl,
      by simp [encodeOperand, Config.maxInsnLen]⟩
  | store => exact ⟨_, .store (.imm16 0x0000#16) (.imm8 0x00#8), rfl, rfl, by decide⟩
  | arithAdd => exact ⟨_, .arithAdd 0x00#8 .a (.imm8 0x00#8), by cases p <;> rfl, rfl, by decide⟩
  | arithSub => exact ⟨_, .arithSub 0x00#8 .a (.imm8 0x00#8), by cases p <;> rfl, rfl, by decide⟩
  | jump => exact ⟨_, .jump 0x0000#16, rfl, rfl, by decide⟩
  | @jumpOn g hg => exact ⟨_, .jumpOn 0x0000#16 g, hg, rfl, by simp [Config.maxInsnLen]⟩
  | push => exact ⟨_, .push (.imm8 0x00#8), rfl, rfl, by decide⟩
  | pop dst =>
    have hwf : (Instr.pop dst).wf p = true := by
      rw [refusedTag_pop] at href
      cases hw : dst.width with
      | w8 => simp [Instr.wf, wfPop, hw]
      | w16 => simp [hw] at href
    exact ⟨_, .pop dst, hwf, rfl, by simp [Config.maxInsnLen]⟩
  | @cond q _ hq htag =>
    exact ⟨_, .cond q .nop, by simp [Instr.wf, hq],
      encode_cond_eq_some.mpr ⟨tag, _, htag, rfl, rfl⟩, by simp [Config.maxInsnLen]⟩
  | halt => exact ⟨_, .halt, rfl, rfl, by decide⟩

/-- Bytes that the parser refuses, it refuses behind any number of guards too. -/
theorem exists_parseInstr_guards_bad {p : FlagProfile} {guards bs : List Byte} {e : DecodeError}
    (hguards : ∀ g ∈ guards, g.toNat / 16 = 8) (hbs : parseInstr p bs = .bad e) :
    ∃ e', parseInstr p (guards ++ bs) = .bad e' := by
  induction guards with
  | nil => exact ⟨e, hbs⟩
  | cons g guards ih =>
    obtain ⟨e', he'⟩ := ih fun g hg => hguards g (List.mem_cons_of_mem _ hg)
    have hop : opcodeOf? g = some .cond := by
      have hall : ∀ g : Byte, g.toNat / 16 = 8 → opcodeOf? g = some .cond := by decide
      exact hall g (hguards g List.mem_cons_self)
    cases hg : Flag.ofIndex? p (flagField g) with
    | none => exact ⟨.reservedFlag, by simp [parseInstr, hop, hg]⟩
    | some flag => exact ⟨e', by simp [parseInstr, hop, hg, he']⟩

theorem exists_descDecode_guards_invalid {p : FlagProfile} {guards bs : List Byte} {e : DecodeError}
    (hguards : ∀ g ∈ guards, g.toNat / 16 = 8) (hbs : parseInstr p bs = .bad e) :
    ∃ e', descDecode p (guards ++ bs) = .invalid e' := by
  obtain ⟨e', he'⟩ := exists_parseInstr_guards_bad hguards hbs
  exact ⟨e', descDecode_of_bad he'⟩

theorem exists_parseOperand_bad {od : Byte} (h : refusedOperandByte od.toNat = true) :
    ∃ e, ∀ rest, parseOperand (od :: rest) = .bad e := by
  have hall : ∀ od : Byte, refusedOperandByte od.toNat = true →
      (operandForm od).toOption = none := by decide
  cases hform : operandForm od with
  | error e => exact ⟨e, fun rest => by simp only [parseOperand, hform]⟩
  | ok form => simpa [hform, Except.toOption] using hall od h

theorem exists_parseArith_bad {d : Byte} (h : d.toNat / 16 ≠ 0 ∨ reservedCode (d.toNat % 16) = true) :
    ∃ e, ∀ mk m rest, parseArith mk (m :: d :: rest) = .bad e := by
  have hall : ∀ d : Byte, d.toNat / 16 ≠ 0 ∨ reservedCode (d.toNat % 16) = true →
      hiNibble d ≠ 0x0#4 ∨ Reg.ofCode? (loNibble d) = none := by decide
  by_cases hhi : hiNibble d = 0x0#4
  · have hreg := (hall d h).resolve_left (absurd hhi)
    exact ⟨.reservedRegister, fun mk m rest => by simp [parseArith, parseArithDst, hhi, hreg]⟩
  · exact ⟨.arithDstByte, fun mk m rest => by simp [parseArith, parseArithDst, hhi]⟩

end Sys2Proof
end

section
/-! SUPPORT. The statements about descriptors: the round trip, and the bytes that spell no instruction. -/

namespace Sys2Proof

/-- Settles O1: the parser reads a well-formed term back and leaves no byte over. -/
theorem decodeOfEncode : Obligations.DecodeOfEncode := by
  intro p i bs hwf henc hlen
  have hparse := parseInstr_encode [] hwf henc
  rw [List.append_nil] at hparse
  exact descDecode_eq_instr_iff.mpr ⟨hparse, hlen, hwf⟩

/-- Settles O2: what the parser has read is the term's descriptor, and the decoder answers a term only where nothing is
left over. -/
theorem encodeOfDecode : Obligations.EncodeOfDecode := by
  intro p i bs h
  obtain ⟨hparse, hlen, hwf⟩ := descDecode_eq_instr_iff.mp h
  obtain ⟨ds, henc, hbs⟩ := eq_of_parseInstr hparse
  rw [List.append_nil] at hbs
  exact ⟨hwf, hbs ▸ henc, hlen⟩

/-- Settles O3: a descriptor cut short is neither complete nor refused, and shorter than the longest one. -/
theorem incompleteDescriptorNeedsMore : Obligations.IncompleteDescriptorNeedsMore := by
  intro p i bs k h hk
  obtain ⟨hparse, hlen, -⟩ := descDecode_eq_instr_iff.mp h
  exact descDecode_of_more (parseInstr_take hparse hk) (by rw [List.length_take]; omega)

/-- Settles O4: bytes that a longer descriptor begins with are answered with `NeedMore`. -/
theorem invalidBytesHaveNoExtension : Obligations.InvalidBytesHaveNoExtension := by
  intro p bs more e i hinvalid hinstr
  cases more with
  | nil =>
    rw [List.append_nil, hinvalid] at hinstr
    cases hinstr
  | cons b more =>
    have hmore := incompleteDescriptorNeedsMore p i _ bs.length hinstr (by simp)
    rw [List.take_left, hinvalid] at hmore
    cases hmore

/-- Settles O5: a tag at which the parser goes on and which is refused is a `POP` of a 16-bit code, never well-formed;
every other one begins a term's descriptor, read back as in O1. -/
theorem refusedFirstBytes : Obligations.RefusedFirstBytes := by
  intro p tag
  obtain htag | ⟨href, e, hbad⟩ := tagForm_or_refused p tag
  · constructor
    · intro href rest
      obtain ⟨dst, rfl, hw⟩ := htag.eq_pop_of_refused href
      exact exists_descDecode_invalid_of_not_wf (parseInstr_pop p rest dst)
        (by simp [Instr.wf, wfPop, hw])
    · intro href
      obtain ⟨rest, i, hwf, henc, hlen⟩ := htag.exists_wf_encode href
      exact ⟨rest, i, decodeOfEncode p i _ hwf henc hlen⟩
  · exact ⟨fun _ rest => ⟨e, descDecode_of_bad (hbad rest)⟩,
      fun hnot => absurd href (by rw [hnot]; decide)⟩

/-- Settles O6: each of these lists is refused by the parser where the error stands, whatever follows it, and so it is
behind guards. -/
theorem refusedLaterBytes : Obligations.RefusedLaterBytes := by
  intro p guards od m d tag rest hguards
  refine ⟨fun hod => ?_, fun hd => ?_, fun href hpop => ?_⟩
  · obtain ⟨e, hbad⟩ := exists_parseOperand_bad hod
    have invalid {bs : List Byte} (h : parseInstr p bs = .bad e) :=
      exists_descDecode_guards_invalid hguards h
    refine ⟨fun dst => invalid ?_, invalid ?_, fun dst => invalid ?_, invalid ?_,
      fun dst => invalid ?_, fun dst => invalid ?_⟩
    · rw [parseInstr_load, hbad, Parse.map_bad]
    · rw [parseInstr_store, hbad, Parse.bind_bad]
    · rw [parseInstr_store, parseOperand_encodeOperand, Parse.bind_done, hbad, Parse.map_bad]
    · rw [parseInstr_push, hbad, Parse.map_bad]
    · rw [parseInstr_arithAdd, parseArith_withReg, hbad, Parse.map_bad]
    · rw [parseInstr_arithSub, parseArith_withReg, hbad, Parse.map_bad]
  · obtain ⟨e, hbad⟩ := exists_parseArith_bad hd
    constructor
    · exact exists_descDecode_guards_invalid hguards (hbad .arithAdd m rest)
    · exact exists_descDecode_guards_invalid hguards (hbad .arithSub m rest)
  · obtain htag | ⟨-, e, hbad⟩ := tagForm_or_refused p tag
    · obtain ⟨dst, rfl, hw⟩ := htag.eq_pop_of_refused href
      exact absurd hpop (withReg_pop_toNat hw)
    · exact exists_descDecode_guards_invalid hguards (hbad rest)

end Sys2Proof
end

section
/-! SUPPORT. A pair through the stack: what a POP comes to, and the expansions of PUSHW and POPW. -/

namespace Sys2Proof.Machine

theorem exec_pop {dst : Reg} {s : State} (h : dst.width = .w8) :
    exec (.pop dst) s =
      .next ((s.writeReg dst (zextByte (s.readMem s.sp))).writeReg .sp (s.sp + 1#16)) :=
  exec_of_wf (by simp [Instr.wf, wfPop, h])

/-- A `PUSH` of an 8-bit register, as the head of a run. -/
theorem execAll_push_reg_cons {r : Reg} (hr : r.width = .w8) (rest : List Instr) (s : State) :
    execAll (.push (.reg r) :: rest) s =
      execAll rest
        ((s.writeMem (s.sp - 1#16) (loByte (s.readReg r))).writeReg .sp (s.sp - 1#16)) :=
  execAll_cons rest (exec_push (by simp [Instr.wf, wfPush, wfInd, Operand.width, hr]))

/-- A `POP` into an 8-bit register, as the head of a run. -/
theorem execAll_pop_cons {dst : Reg} (h : dst.width = .w8) (rest : List Instr) (s : State) :
    execAll (.pop dst :: rest) s =
      execAll rest ((s.writeReg dst (zextByte (s.readMem s.sp))).writeReg .sp (s.sp + 1#16)) :=
  execAll_cons rest (exec_pop h)

@[simp] theorem State.sp_writeReg_sp (s : State) (v : Word) : (s.writeReg .sp v).sp = v := rfl

theorem overlaps_sp {q : Reg} (h : q ≠ .sp) : overlaps .sp q = false := by
  revert h
  cases q <;> decide

theorem Pair.overlaps_sp_bytes (p : Pair) :
    overlaps .sp p.hi = false ∧ overlaps .sp p.lo = false := by
  cases p <;> decide

/-- A pair is the word of its two bytes (10_state.md R25). -/
theorem State.readReg_whole_of_bytes {s : State} {p : Pair} {x y : Byte}
    (hhi : s.readReg p.hi = zextByte x) (hlo : s.readReg p.lo = zextByte y) :
    s.readReg p.whole = ofHiLo x y := by
  rw [← ofHiLo_hiByte_loByte (s.readReg p.whole), ← loByte_zextByte (hiByte _),
    ← loByte_zextByte (loByte (s.readReg p.whole)), ← State.readReg_hi, ← State.readReg_lo, hhi, hlo,
    loByte_zextByte, loByte_zextByte]

/-- The expansion of `PUSHW` leaves the pair's bytes at the new SP, the low one first, and no register but SP another
value (30_encoding.md R86). -/
theorem execAll_pushw {s : State} (hs : Memory.wf s.mem = true) (p : Pair) :
    ∃ t, execAll [.push (.reg p.hi), .push (.reg p.lo)] s = some t ∧
      t.sp = s.sp - 2#16 ∧ t.readMem t.sp = loByte (s.readReg p.whole) ∧
      t.readMem (t.sp + 1#16) = hiByte (s.readReg p.whole) ∧ t.f = s.f ∧
      ∀ q : Reg, q ≠ .sp → t.readReg q = s.readReg q := by
  have hne : s.sp - 1#16 ≠ s.sp - 1#16 - 1#16 := by bv_omega
  obtain ⟨hhi, hlo⟩ := State.readMem_writeMem_writeMem hs hne
    (hiByte (s.readReg p.whole)) (loByte (s.readReg p.whole))
  rw [execAll_push_reg_cons p.width_hi, execAll_push_reg_cons p.width_lo,
    State.readReg_writeReg_other _ _ _ _ p.overlaps_sp_bytes.2, State.readReg_writeMem,
    State.readReg_hi, State.readReg_lo, loByte_zextByte, loByte_zextByte]
  simp only [State.sp_writeReg_sp]
  refine ⟨_, rfl, ?_, hlo, ?_, rfl, fun q hq => ?_⟩
  · rw [State.sp_writeReg_sp, BitVec.sub_sub]
    rfl
  · rw [State.sp_writeReg_sp, BitVec.sub_add_cancel]
    exact hhi
  · simp [State.readReg_writeReg_other, overlaps_sp hq]

/-- The expansion of `POPW` gives the pair the word of the two bytes at SP, the low one first, and no register but the
pair and SP another value (30_encoding.md R86). -/
theorem execAll_popw (p : Pair) (s : State) :
    ∃ t, execAll [.pop p.lo, .pop p.hi] s = some t ∧
      t.readReg p.whole = ofHiLo (s.readMem (s.sp + 1#16)) (s.readMem s.sp) ∧
      t.sp = s.sp + 2#16 ∧ t.f = s.f ∧
      ∀ q : Reg, q ≠ .sp → overlaps p.whole q = false → t.readReg q = s.readReg q := by
  rw [execAll_pop_cons p.width_lo, execAll_pop_cons p.width_hi]
  simp only [State.sp_writeReg_sp, State.readMem_writeReg]
  refine ⟨_, rfl, State.readReg_whole_of_bytes ?_ ?_, ?_, ?_, fun q hsp hq => ?_⟩
  · simp [State.readReg_writeReg_other, State.readReg_writeReg_self, p.overlaps_sp_bytes, p.width_hi]
  · simp [State.readReg_writeReg_other, State.readReg_writeReg_self, p.overlaps_sp_bytes, p.width_lo,
      p.overlaps_hi_lo]
  · rw [State.sp_writeReg_sp, BitVec.add_assoc]
    rfl
  · simp
  · obtain ⟨hhi, hlo⟩ := Pair.overlaps_bytes_of_whole hq
    simp [State.readReg_writeReg_other, overlaps_sp hsp, hhi, hlo]

/-- Settles O50: the expansion of `PUSHW` leaves the pair's bytes where that of `POPW` reads them. -/
theorem pairThroughStackIsUnchanged : Obligations.PairThroughStackIsUnchanged := by
  rintro rp rq s ⟨hmem, -⟩
  obtain ⟨t, ht, hsp, hlo, hhi, hf, hframe⟩ := execAll_pushw hmem rp
  obtain ⟨u, hu, hwhole, husp, huf, huframe⟩ := execAll_popw rq t
  have hback : u.sp = s.sp := by rw [husp, hsp, BitVec.sub_add_cancel]
  refine ⟨t, u, ht, hsp, hu, ?_, hback, huf.trans hf, fun q hq => ?_⟩
  · rw [hwhole, hhi, hlo, ofHiLo_hiByte_loByte]
  · by_cases hqsp : q = .sp
    · subst hqsp
      exact hback
    · rw [huframe q hqsp hq, hframe q hqsp]

end Sys2Proof.Machine
end

section
/-! SUPPORT. The ALU flag by flag, the masked merge bit by bit, and what an ARITH(SUB) and a JUMP_ON come to. -/

namespace Sys2Proof

/-! ## Codes and bit positions -/

theorem loNibble_toNat (b : Byte) : (loNibble b).toNat = b.toNat % 16 := by
  simp [loNibble]

theorem Flag.pos_ne_reserved (g : Flag) : ∀ k ∈ [1, 3, 5], k ≠ g.pos := by
  cases g <;> decide

theorem Flag.inProfile_p (p : FlagProfile) : Flag.p.inProfile p = decide (p = .i8080) := by
  cases p <;> rfl

theorem Flag.inProfile_ac (p : FlagProfile) : Flag.ac.inProfile p = decide (p = .i8080) := by
  cases p <;> rfl

theorem Ctl.ofCode?_eq_none_iff (code : BitVec 4) : Ctl.ofCode? code = none ↔ 2 ≤ code.toNat := by
  revert code
  decide

theorem Reg.ofCode?_eq_none_iff (code : BitVec 4) :
    Reg.ofCode? code = none ↔ Machine.reservedCode code.toNat = true := by
  revert code
  decide

end Sys2Proof

namespace Sys2Proof.Machine

/-! ## The FlagSet of a result -/

theorem flagBit_getLsbD (g : Flag) (b : Bool) (k : Nat) :
    (flagBit g b).getLsbD k = (b && decide (k = g.pos)) := by
  have hpos : g.pos < 8 := by cases g <;> decide
  obtain h | rfl | h := Nat.lt_trichotomy k g.pos
  · simp [flagBit, h, h.ne]
  · simp [flagBit, hpos]
  · simp [flagBit, BitVec.getLsbD_ofBool, h.ne', show k - g.pos ≠ 0 by omega]

/-- What the ALU says of each flag, where the profile has it (40_alu_flags.md R90, R91). -/
def resultFlag (carry ac : Bool) (r : Byte) : Flag → Bool
  | .c => carry
  | .z => decide (r.toNat = 0)
  | .s => decide (128 ≤ r.toNat)
  | .p => decide (popcount r % 2 = 0)
  | .ac => ac

theorem getLsbD_seven (r : Byte) : r.getLsbD 7 = decide (128 ≤ r.toNat) := by
  rw [← BitVec.msb_eq_getLsbD_last r, BitVec.msb_eq_decide]

theorem flagsGet_aluFlags (p : FlagProfile) (carry ac : Bool) (r : Byte) (g : Flag) :
    flagsGet (aluFlags p carry ac r) g = (g.inProfile p && resultFlag carry ac r g) := by
  have hz : (r == 0x00#8) = decide (r.toNat = 0) := decide_eq_decide.mpr BitVec.toNat_inj.symm
  have hp : evenParity r = decide (popcount r % 2 = 0) := rfl
  cases p <;>
    simp only [flagsGet, aluFlags, BitVec.getLsbD_or, flagBit_getLsbD, hz, hp, getLsbD_seven] <;>
    cases g <;> simp [resultFlag, Flag.inProfile, Flag.pos]

/-- No FlagSet of the ALU has a bit at a position that is no flag's (40_alu_flags.md R95). -/
theorem aluFlags_getLsbD_reserved {k : Nat} (hk : k ∈ [1, 3, 5]) (p : FlagProfile) (carry ac : Bool)
    (r : Byte) : (aluFlags p carry ac r).getLsbD k = false := by
  have hne (g : Flag) : k ≠ g.pos := g.pos_ne_reserved k hk
  cases p <;> simp [aluFlags, flagBit_getLsbD, hne]

theorem alu_getLsbD_reserved {k : Nat} (hk : k ∈ [1, 3, 5]) (p : FlagProfile) (rule : AcSubRule)
    (ctl : Ctl) (a b : Byte) : (alu p rule ctl a b).f.getLsbD k = false := by
  cases ctl <;> exact aluFlags_getLsbD_reserved hk ..

/-! ## ADD and SUB -/

/-- Bit 8 of the 9-bit sum says that the sum does not fit in a byte (40_alu_flags.md R90). -/
theorem getLsbD_eight_setWidth_add (a b : Byte) :
    (a.setWidth 9 + b.setWidth 9).getLsbD 8 = decide (255 < a.toNat + b.toNat) := by
  rw [← BitVec.testBit_toNat, Nat.testBit_eq_decide_div_mod_eq, BitVec.toNat_add,
    BitVec.toNat_setWidth, BitVec.toNat_setWidth, decide_eq_decide]
  omega

theorem alu_add (p : FlagProfile) (rule : AcSubRule) (a b : Byte) :
    alu p rule .add a b =
      ⟨a + b, aluFlags p (decide (255 < a.toNat + b.toNat)) (acAdd a b) (a + b)⟩ := by
  have hr : (a.setWidth 9 + b.setWidth 9).extractLsb' 0 8 = a + b := by
    apply BitVec.eq_of_toNat_eq
    simp only [BitVec.extractLsb'_toNat, BitVec.toNat_add, BitVec.toNat_setWidth, Nat.shiftRight_zero]
    omega
  simp only [alu, aluAdd, hr, getLsbD_eight_setWidth_add]

theorem alu_sub (p : FlagProfile) (rule : AcSubRule) (a b : Byte) :
    alu p rule .sub a b =
      ⟨a - b, aluFlags p (decide (a.toNat < b.toNat)) (acSub rule a b) (a - b)⟩ := by
  simp only [alu, aluSub, BitVec.ult_eq_decide]

theorem flagsGet_alu_add (p : FlagProfile) (rule : AcSubRule) (a b : Byte) (g : Flag) :
    flagsGet (alu p rule .add a b).f g =
      (g.inProfile p && resultFlag (decide (255 < a.toNat + b.toNat)) (acAdd a b) (a + b) g) := by
  rw [alu_add, flagsGet_aluFlags]

theorem flagsGet_alu_sub (p : FlagProfile) (rule : AcSubRule) (a b : Byte) (g : Flag) :
    flagsGet (alu p rule .sub a b).f g =
      (g.inProfile p && resultFlag (decide (a.toNat < b.toNat)) (acSub rule a b) (a - b) g) := by
  rw [alu_sub, flagsGet_aluFlags]

theorem flagsGet_alu_add_c (p : FlagProfile) (rule : AcSubRule) (a b : Byte) :
    flagsGet (alu p rule .add a b).f .c = decide (255 < a.toNat + b.toNat) :=
  flagsGet_alu_add p rule a b .c

theorem flagsGet_alu_sub_c (p : FlagProfile) (rule : AcSubRule) (a b : Byte) :
    flagsGet (alu p rule .sub a b).f .c = decide (a.toNat < b.toNat) :=
  flagsGet_alu_sub p rule a b .c

/-- A difference is 0 exactly where the operands are equal (40_alu_flags.md R102). -/
theorem flagsGet_alu_sub_z (p : FlagProfile) (rule : AcSubRule) (a b : Byte) :
    flagsGet (alu p rule .sub a b).f .z = decide (a = b) := by
  refine (flagsGet_alu_sub p rule a b .z).trans (decide_eq_decide.mpr ?_)
  bv_omega

/-- A difference as the statements spell it, the subtraction kept from going below 0. -/
theorem toNat_byte_sub (a b : Byte) : (a - b).toNat = (a.toNat + 256 - b.toNat) % 256 := by
  rw [BitVec.toNat_sub', ← Nat.add_sub_assoc b.isLt.le]

/-! ## The masked merge -/

theorem flagsMerge_getLsbD (f mask old : Byte) (k : Nat) :
    (flagsMerge f mask old).getLsbD k = if mask.getLsbD k then f.getLsbD k else old.getLsbD k := by
  cases hm : mask.getLsbD k with
  | false => exact flagsMerge_getLsbD_of_not_mask hm
  | true => simp only [flagsMerge, BitVec.getLsbD_or, BitVec.getLsbD_and, BitVec.getLsbD_not, hm,
      Bool.not_true, Bool.and_true, Bool.and_false, Bool.or_false, if_true]

/-- Under the profile's `all_on` a FlagSet replaces another one whole (40_alu_flags.md R99). -/
theorem flagsMerge_fmask {p : FlagProfile} {f old : Byte} (hf : f &&& ~~~p.fmask = 0x00#8)
    (ho : old &&& ~~~p.fmask = 0x00#8) : flagsMerge f p.fmask old = f := by
  calc flagsMerge f p.fmask old
      = (f &&& p.fmask) ||| (f &&& ~~~p.fmask) := by rw [flagsMerge, ho, hf]
    _ = f := by rw [← BitVec.and_or_distrib_left, BitVec.or_not_self, BitVec.and_allOnes]

theorem flagsMerge_allOff (f old : Byte) : flagsMerge f flagsAllOff old = old := by
  rw [flagsMerge, flagsAllOff, BitVec.and_zero, BitVec.zero_or, BitVec.not_zero, BitVec.and_allOnes]

/-! ## The committed flags -/

theorem flagsGet_fmask (p : FlagProfile) (g : Flag) : flagsGet p.fmask g = g.inProfile p := by
  cases p <;> cases g <;> rfl

theorem State.flag_eq (s : State) (g : Flag) :
    s.flag g = (flagsGet s.f g && g.inProfile s.profile) := by
  rw [← flagsGet_fmask]
  exact BitVec.getLsbD_and

/-- A flag that a commit mask has is the one committed. -/
theorem State.flag_commitFlags_of_mask {s : State} {mask : Byte} {g : Flag}
    (hg : g.inProfile s.profile = true) (hm : flagsGet mask g = true) (f : Byte) :
    (s.commitFlags f mask).flag g = flagsGet f g := by
  rw [State.flag_eq, State.commitFlags_profile, hg, Bool.and_true]
  exact (flagsMerge_getLsbD f mask s.f g.pos).trans (if_pos hm)

/-! ## ARITH(SUB) and JUMP_ON -/

theorem exec_arithSub {mask : Byte} {dst : Reg} {rhs : Operand} {s : State}
    (h : (Instr.arithSub mask dst rhs).wf s.profile = true) :
    exec (.arithSub mask dst rhs) s =
      .next ((s.writeReg dst (zextByte (s.aluAccOp .sub (s.resolveByte rhs)).r)).commitFlags
        (s.aluAccOp .sub (s.resolveByte rhs)).f mask) :=
  exec_of_wf h

theorem commit_jumpOnWrites (target : Word) (g : Flag) (s : State) :
    commit (jumpOnWrites target g s) s = { s with pc := if s.flag g then target else s.pc } := by
  unfold jumpOnWrites
  split <;> rfl

theorem exec_jumpOn {g : Flag} {s : State} (h : g.inProfile s.profile = true) (target : Word) :
    exec (.jumpOn target g) s = .next { s with pc := if s.flag g then target else s.pc } := by
  rw [exec_of_wf (i := .jumpOn target g) h, writesOf, commit_jumpOnWrites]

/-- A jump on a flag that has just been committed tests that one. -/
theorem exec_jumpOn_commitFlags {s : State} {mask : Byte} {g : Flag}
    (hg : g.inProfile s.profile = true) (hm : flagsGet mask g = true) (f : Byte) (target : Word) :
    exec (.jumpOn target g) (s.commitFlags f mask) =
      .next { s.commitFlags f mask with pc := if flagsGet f g then target else s.pc } := by
  rw [exec_jumpOn (s := s.commitFlags f mask) hg, State.flag_commitFlags_of_mask hg hm,
    State.commitFlags_pc]

/-- No 8-bit code reaches PC (10_state.md R24). -/
theorem State.writeReg_pc_of_w8 (s : State) {r : Reg} (h : r.width = .w8) (v : Word) :
    (s.writeReg r v).pc = s.pc := by
  have hpc : overlaps r .pc = false := by
    revert h
    cases r <;> decide
  exact s.readReg_writeReg_other r .pc v hpc

end Sys2Proof.Machine
end

section
/-! SUPPORT. The statements about the ALU and its flags: each operation's result and FlagSet, how they relate, the
masked commit, the comparison by SUB, and what the ports refuse. -/

namespace Sys2Proof.Machine

/-- Settles O26: each flag of the profile is what the wrapping sum says of it, and the other bits are no flag's. -/
theorem aluAddResultAndFlags : Obligations.AluAddResultAndFlags := by
  intro p rule a b out
  have hr : out.r = a + b := congrArg AluOut.r (alu_add p rule a b)
  have hflag (g : Flag) := flagsGet_alu_add p rule a b g
  have hreserved {k : Nat} (hk : k ∈ [1, 3, 5]) : out.f.getLsbD k = false :=
    alu_getLsbD_reserved hk ..
  refine ⟨?result, hflag .c, hflag .z, hflag .s, ?ac, ?p, hreserved (by decide),
    hreserved (by decide), hreserved (by decide)⟩
  case result => rw [hr, BitVec.toNat_add]
  case ac =>
    rw [← Flag.inProfile_ac, ← loNibble_toNat, ← loNibble_toNat]
    exact hflag .ac
  case p =>
    rw [← Flag.inProfile_p, hr]
    exact hflag .p

/-- Settles O27: as for ADD, with the wrapping difference, and AC by cases on the rule. -/
theorem aluSubResultAndFlags : Obligations.AluSubResultAndFlags := by
  intro p rule a b out
  have hr : out.r = a - b := congrArg AluOut.r (alu_sub p rule a b)
  have hflag (g : Flag) := flagsGet_alu_sub p rule a b g
  have hac : out.f.getLsbD 4 = (decide (p = .i8080) && acSub rule a b) := by
    rw [← Flag.inProfile_ac]
    exact hflag .ac
  have hreserved {k : Nat} (hk : k ∈ [1, 3, 5]) : out.f.getLsbD k = false :=
    alu_getLsbD_reserved hk ..
  refine ⟨?result, hflag .c, flagsGet_alu_sub_z p rule a b, ?s, fun hp => ?generic,
    fun hp hrule => ?noHalfBorrow, fun hp hrule => ?halfBorrow, ?p, hreserved (by decide),
    hreserved (by decide), hreserved (by decide)⟩
  case result => rw [hr, toNat_byte_sub]
  case s =>
    rw [← toNat_byte_sub]
    exact hflag .s
  case generic =>
    rw [hac, hp]
    rfl
  case noHalfBorrow =>
    rw [hac, hp, hrule, ← loNibble_toNat, ← loNibble_toNat]
    rfl
  case halfBorrow =>
    rw [hac, hp, hrule, ← loNibble_toNat, ← loNibble_toNat]
    rfl
  case p =>
    rw [← Flag.inProfile_p, hr]
    exact hflag .p

/-- Settles O28: `~b + 1` is `-b`, which is `256 - b` for `b` not 0. -/
theorem subtractionRelatesToAddition : Obligations.SubtractionRelatesToAddition := by
  intro p rule a b
  refine ⟨?_, fun hb => ?_, flagsGet_alu_sub_z p rule a b, flagsGet_alu_sub_c p rule a b⟩
  · rw [alu_sub, alu_add, BitVec.sub_eq_add_neg, BitVec.neg_eq_not_add]
  · have hb' : b.toNat ≠ 0 := fun h => hb (BitVec.eq_of_toNat_eq h)
    rw [flagsGet_alu_sub_c, flagsGet_alu_add_c, ← BitVec.neg_eq_not_add, BitVec.toNat_neg,
      ← decide_not, decide_eq_decide]
    omega

/-- Settles O29: the merge bit by bit, and R104's `20 - 50` under both profiles and both values of `AC_SUB_RULE`. -/
theorem maskedCommitChangesMaskedFlagsOnly : Obligations.MaskedCommitChangesMaskedFlagsOnly := by
  intro s f mask k
  refine ⟨flagsMerge_getLsbD f mask s.f k, fun hs hf => ?_, ?_, fun p rule => ?_⟩
  · exact flagsMerge_fmask ((wfMask_iff s.profile f).mp hf) hs.2
  · rw [State.commitFlags, flagsMerge_allOff]
  · change flagsMerge (alu p rule .sub 20#8 50#8).f 0x01#8 0x00#8 = 0x01#8
    cases p <;> cases rule <;> decide

/-- Settles O51: the SUB commits C and Z of `A - rhs`, which the jump then tests. -/
theorem subThenJumpCompares : Obligations.SubThenJumpCompares := by
  intro dst rhs target s hdst hrhs hind
  have hmask : wfMask s.profile 0x41#8 = true := by cases s.profile <;> rfl
  have hwf : (Instr.arithSub 0x41#8 dst rhs).wf s.profile = true := by
    simp [Instr.wf, wfArithDst, wfArithRhs, hdst, hrhs, hmask, hind]
  refine ⟨_, exec_arithSub hwf, State.writeReg_pc_of_w8 s hdst _, ?_, ?_⟩
  · rw [exec_jumpOn_commitFlags rfl rfl, State.aluAccOp, flagsGet_alu_sub_c,
      State.writeReg_pc_of_w8 s hdst]
    simp only [decide_eq_true_eq]
  · rw [exec_jumpOn_commitFlags rfl rfl, State.aluAccOp, flagsGet_alu_sub_z,
      State.writeReg_pc_of_w8 s hdst]
    simp only [decide_eq_true_eq]

/-- Settles O30: a port over a code refuses what the code's decoding does, the flag port what `WF-MASK` does. -/
theorem portsRefuseReservedCodes : Obligations.PortsRefuseReservedCodes := by
  intro s p rule code a b f mask data
  refine ⟨?_, ?_, ?_, ?_⟩
  · rw [aluPort, Option.map_eq_none_iff, Ctl.ofCode?_eq_none_iff]
  · rw [State.regReadPort, Option.map_eq_none_iff, Reg.ofCode?_eq_none_iff]
  · rw [State.regWritePort, if_pos rfl, Option.map_eq_none_iff, Reg.ofCode?_eq_none_iff]
  · rw [State.flagWritePort, if_pos rfl, isFlagSet, ← not_iff_not, not_not, ← wfMask_iff]
    cases wfMask s.profile mask <;> simp

end Sys2Proof.Machine
end

section
/-! SUPPORT. The statement about the operand resolver: what each operand form resolves to, and at which width. -/

namespace Sys2Proof.Machine

/-- An operand's value has the width that 30_encoding.md R76 gives its form. -/
theorem State.resolve_width (s : State) (op : Operand) : (s.resolve op).width = op.width := by
  cases op <;> rfl

/-- Indirection is composition with `DIR`, never a path of its own (41_operand_resolver.md R109). -/
theorem State.resolve_ind (s : State) (r : Reg) : s.resolve (.ind r) = s.resolve (.dir (s.readReg r)) := rfl

/-- Settles O25: each form's value is the resolver's equation for it, and the widths agree form by form. -/
theorem operandValues : Obligations.OperandValues := by
  intro s n v r
  exact ⟨rfl, rfl, rfl, rfl, s.resolve_ind r, s.resolve_width⟩

end Sys2Proof.Machine
end

section
/-! SUPPORT. Laws of the cycle: what it comes to where the decoder answers a term, that it has a next state while `RUN`
is `Running`, which instruction writes `RUN`, and how a run under fuel goes on. -/

namespace Sys2Proof.Machine

/-! ## A cycle over a decoded instruction -/

theorem State.bytesAt_take (s : State) {k n : Nat} (h : k ≤ n) : (s.bytesAt n).take k = s.bytesAt k := by
  rw [State.bytesAt, ← List.map_take, List.take_range, Nat.min_eq_left h]
  rfl

/-- A cycle executes the term that the decoder answers, with PC past its bytes, where the decoder wants more after each
shorter list (42_cycle.md R121). -/
theorem cycleWith_of_instr {dec : Decoder} {s : State} {n : Nat} {i : Instr} (hrun : s.run = .running)
    (h0 : 0 < n) (hn : n ≤ Config.maxInsnLen)
    (hmore : ∀ k, 0 < k → k < n → dec (s.bytesAt k) = .needMore)
    (hinstr : dec (s.bytesAt n) = .instr i) : cycleWith dec s = exec i (s.advance n) := by
  obtain ⟨m, rfl⟩ : ∃ m, n = m + 1 := ⟨n - 1, by omega⟩
  have hfetch : fetchInsn dec s = ⟨s.advance (m + 1), s.bytesAt (m + 1), .ok i⟩ :=
    (fetchLoop_of_answer dec m Config.maxInsnLen [] s hn fun k hk0 hkm =>
      hmore k hk0 (by omega)).1 i hinstr
  simp only [cycleWith, hrun, fetchExec, hfetch, ite_wf_exec]

/-! ## Where a cycle has a next state -/

theorem exec_next (i : Instr) (s : State) : ∃ t, exec i s = .next t := by
  cases hw : i.wf s.profile with
  | true => exact ⟨_, exec_of_wf hw⟩
  | false => exact ⟨_, exec_of_not_wf hw⟩

theorem fetchExec_next (dec : Decoder) (s : State) : ∃ t, fetchExec dec s = .next t := by
  cases hv : (fetchInsn dec s).verdict with
  | error e =>
    simp only [fetchExec, hv]
    exact ⟨_, rfl⟩
  | ok i =>
    simp only [fetchExec, hv, ite_wf_exec]
    exact exec_next i _

theorem cycleWith_next_of_running (dec : Decoder) {s : State} (h : s.run = .running) :
    ∃ t, cycleWith dec s = .next t := by
  simp only [cycleWith, h]
  exact fetchExec_next dec s

/-! ## The instruction that writes `RUN` -/

/-- Only a `HALT`, bare or inside guards that all hold, writes `RUN`, and then it writes nothing else
(47_guard_nop_halt.md R135). -/
theorem writesOf_run {i : Instr} {s : State} {r : RunState} (h : (writesOf i s).run = some r) :
    innermost i = .halt ∧ guardsHold s i = true ∧ writesOf i s = haltWrites := by
  induction i with
  | cond q inner ih =>
    cases hq : s.holds q with
    | true =>
      simp only [writesOf, hq, if_true] at h ⊢
      simpa [innermost, guardsHold, hq] using ih h
    | false => simp [writesOf, hq, noWrite] at h
  | jumpOn target g =>
    cases hg : s.flag g <;> simp [writesOf, jumpOnWrites, hg, noWrite, jumpWrites] at h
  | halt => exact ⟨rfl, rfl, rfl⟩
  | _ => cases h

/-! ## A run under fuel -/

theorem runCycles_succ_of_next {s t : State} (h : step s = .next t) (n : Nat) :
    runCycles (n + 1) s = runCycles n t := by
  simp only [step] at h
  simp only [runCycles, h]

theorem runCycles_of_not_running {s : State} (h : s.run ≠ .running) (n : Nat) : runCycles n s = s := by
  cases n with
  | zero => rfl
  | succ n =>
    cases hrun : s.run with
    | running => exact absurd hrun h
    | halted | error => simp only [runCycles, cycle, cycleWith, hrun]

/-- A run goes on from where a shorter one ends (42_cycle.md R124). -/
theorem runCycles_add (m n : Nat) (s : State) :
    runCycles (m + n) s = runCycles n (runCycles m s) := by
  induction m generalizing s with
  | zero => rw [Nat.zero_add]; rfl
  | succ m ih =>
    by_cases hrun : s.run = .running
    · obtain ⟨t, ht⟩ : ∃ t, step s = .next t := cycleWith_next_of_running _ hrun
      rw [Nat.succ_add, runCycles_succ_of_next ht, runCycles_succ_of_next ht, ih]
    · simp only [runCycles_of_not_running hrun]

end Sys2Proof.Machine
end

section
/-! SUPPORT. The statements about the cycle: what a step executes, where it has a next state, what leads to `Halted`,
and runs under fuel. -/

namespace Sys2Proof.Machine

/-- Settles O8: of the bytes of a complete descriptor the decoder wants more until the last, so the fetch loop ends
there. -/
theorem stepRunsDecodedInstruction : Obligations.StepRunsDecodedInstruction := by
  intro s i n hrun hdec
  have hlen : n ≤ Config.maxInsnLen := by
    obtain ⟨-, hlen, -⟩ := descDecode_eq_instr_iff.mp hdec
    rwa [State.bytesAt_length] at hlen
  have hpos : 0 < n := by
    refine Nat.pos_of_ne_zero fun h0 => ?_
    rw [h0] at hdec
    cases hdec
  refine cycleWith_of_instr hrun hpos hlen (fun k _ hk => ?_) hdec
  rw [← s.bytesAt_take hk.le]
  exact incompleteDescriptorNeedsMore s.profile i _ k hdec (by rwa [State.bytesAt_length])

/-- Settles O9: the descriptor decodes to its term (O1), which the step then executes (O8). -/
theorem stepRefinesTermExecution : Obligations.StepRefinesTermExecution := by
  intro s i bs hrun hwf henc hlen hbytes
  have hdec : descDecode s.profile (s.bytesAt bs.length) = .instr i := by
    rw [hbytes]
    exact decodeOfEncode s.profile i bs hwf henc hlen
  exact stepRunsDecodedInstruction s i bs.length hrun hdec

/-- Settles O16: a step that ends in `Halted` has not raised `Error`, so it has committed a write of `RUN`, which only a
`HALT` makes. -/
theorem onlyHaltReachesHalted : Obligations.OnlyHaltReachesHalted := by
  intro s t hstep hhalted
  obtain ⟨hrun, n, -, -, -, rfl | ⟨i, hdec, -, rfl⟩⟩ := cycleWith_cases hstep
  · cases hhalted
  · rw [commit_run] at hhalted
    cases hw : (writesOf i (s.advance n)).run with
    | none => simp [hw, hrun] at hhalted
    | some r =>
      obtain ⟨hinner, hguards, hwrites⟩ := writesOf_run hw
      exact ⟨n, i, hdec, hinner, hguards, by rw [hwrites]; rfl⟩

/-- Settles O13: a cycle with a next state began `Running`, and from `Running` each way through a cycle ends in one. -/
theorem successorExactlyWhileRunning : Obligations.SuccessorExactlyWhileRunning := by
  intro dec s
  constructor
  · rintro ⟨t, ht⟩
    exact (cycleWith_cases ht).1
  · exact cycleWith_next_of_running dec

/-- Settles O17: fuel adds up, a terminal state stands still, and a `Running` one takes a step. -/
theorem runEndsExactlyAtTerminalStates : Obligations.RunEndsExactlyAtTerminalStates := by
  intro m n s
  refine ⟨runCycles_add m n s, fun hterm => ?_, fun hrun => ?_⟩
  · rw [runCycles_add, runCycles_of_not_running hterm]
  · obtain ⟨t, ht⟩ : ∃ t, step (runCycles m s) = .next t := cycleWith_next_of_running _ hrun
    refine ⟨t, ht, ?_⟩
    rw [runCycles_add, runCycles_succ_of_next ht]
    rfl

/-- Settles O14: the cycle asks `RUN` before it fetches. -/
theorem terminalStatesStopByName : Obligations.TerminalStatesStopByName := by
  intro dec s
  constructor <;> intro hrun <;> simp only [cycleWith, hrun]

end Sys2Proof.Machine
end

section
/-! SUPPORT. The statements about LOAD and STORE: that an operand's value fits a destination of its width, and what the
two instructions change. -/

namespace Sys2Proof.Machine

/-- An operand of 8-bit width has a zero-extended byte as its value (30_encoding.md R68). -/
theorem State.resolve_bits_of_w8 (s : State) {op : Operand} (h : op.width = .w8) :
    (s.resolve op).bits = zextByte (s.resolveByte op) := by
  cases op with
  | imm8 n => exact congrArg zextByte (loByte_zextByte n).symm
  | imm16 n => cases h
  | reg r => exact s.readReg_of_w8 h
  | dir addr => exact congrArg zextByte (loByte_zextByte _).symm
  | ind r => exact congrArg zextByte (loByte_zextByte _).symm

/-- A register reads back an operand's value of its own width unchanged (30_encoding.md R84 `WF-LOAD`). -/
theorem State.readReg_writeReg_resolve (s : State) {dst : Reg} {src : Operand}
    (h : src.width = dst.width) :
    (s.writeReg dst (s.resolve src).bits).readReg dst = (s.resolve src).bits := by
  rw [State.readReg_writeReg_self]
  split
  · next hw => exact (s.resolve_bits_of_w8 (h.trans hw)).symm
  · rfl

/-- No other code shares storage with PC (10_state.md R24). -/
theorem overlaps_pc {r : Reg} (h : r ≠ .pc) : overlaps r .pc = false := by
  revert h
  cases r <;> decide

/-- Settles O31: a LOAD is one register write, of a value that has the destination's width; PC is a register like the
others here. -/
theorem loadResult : Obligations.LoadResult := by
  intro dst src s hwf
  have hwidth : src.width = dst.width := by
    simp only [Instr.wf, wfLoad, Bool.and_eq_true, beq_iff_eq] at hwf
    exact hwf.1
  have hself := s.readReg_writeReg_resolve hwidth
  have hother (q : Reg) := s.readReg_writeReg_other dst q (s.resolve src).bits
  refine ⟨_, exec_load hwf, hself, hother, ?_, fun hne => hother .pc (overlaps_pc hne),
    s.writeReg_f .., fun b => s.readMem_writeReg dst _ b, s.writeReg_run .., s.writeReg_profile ..⟩
  rintro rfl
  exact hself

/-- Settles O32: a STORE is one memory write, and the invariant gives the canonical form in which it reads back. -/
theorem storeResult : Obligations.StoreResult := by
  rintro dst src s ⟨hmem, -⟩ hwf
  exact ⟨_, exec_store hwf, fun b => State.readMem_writeMem hmem _ b _⟩

end Sys2Proof.Machine
end

section
/-! SUPPORT. The statements about ARITH: what one with either control code changes and leaves unchanged, and the
results of ADD and SUB. -/

namespace Sys2Proof

/-- `ARITH(ctl, mask, dst, rhs)` of 30_encoding.md R64, the control code a parameter as the spec has it. -/
def Instr.arith (ctl : Ctl) (mask : Byte) (dst : Reg) (rhs : Operand) : Instr :=
  match ctl with
  | .add => .arithAdd mask dst rhs
  | .sub => .arithSub mask dst rhs

theorem Instr.width_dst_of_wf_arith {p : FlagProfile} {ctl : Ctl} {mask : Byte} {dst : Reg} {rhs : Operand}
    (h : (Instr.arith ctl mask dst rhs).wf p = true) : dst.width = .w8 := by
  cases ctl <;>
    · simp only [arith, wf, wfArithDst, Bool.and_eq_true, beq_iff_eq] at h
      exact h.1.1.1

end Sys2Proof

namespace Sys2Proof.Machine

/-- An ARITH is one register write and one masked merge of what the ALU answers. -/
theorem exec_arith {ctl : Ctl} {mask : Byte} {dst : Reg} {rhs : Operand} {s : State}
    (h : (Instr.arith ctl mask dst rhs).wf s.profile = true) :
    exec (.arith ctl mask dst rhs) s =
      .next ((s.writeReg dst (zextByte (s.aluAccOp ctl (s.resolveByte rhs)).r)).commitFlags
        (s.aluAccOp ctl (s.resolveByte rhs)).f mask) := by
  cases ctl with
  | add => exact exec_of_wf h
  | sub => exact exec_arithSub h

/-- The result and the frame of a well-formed ARITH with either control code, as the ALU's answer (44_arithmetic.md
R127, R128). -/
theorem exec_arith_result {ctl : Ctl} {mask : Byte} {dst : Reg} {rhs : Operand} {s : State}
    (hwf : (Instr.arith ctl mask dst rhs).wf s.profile = true) :
    ∃ t, exec (.arith ctl mask dst rhs) s = .next t ∧
      t.readReg dst = zextByte (s.aluAccOp ctl (s.resolveByte rhs)).r ∧
      (∀ k, t.f.getLsbD k = if mask.getLsbD k then (s.aluAccOp ctl (s.resolveByte rhs)).f.getLsbD k
        else s.f.getLsbD k) ∧
      (∀ q : Reg, overlaps dst q = false → t.readReg q = s.readReg q) ∧ t.pc = s.pc ∧
      (∀ b : Word, t.readMem b = s.readMem b) ∧ t.run = s.run ∧ t.profile = s.profile := by
  have hdst : dst.width = .w8 := Instr.width_dst_of_wf_arith hwf
  refine ⟨_, exec_arith hwf, ?self, fun k => ?flags, fun q hq => ?other, s.writeReg_pc_of_w8 hdst _,
    s.readMem_writeReg dst _, s.writeReg_run .., s.writeReg_profile ..⟩
  case self =>
    rw [State.readReg_commitFlags, State.readReg_writeReg_self, if_pos hdst, loByte_zextByte]
  case flags => rw [State.commitFlags_f, flagsMerge_getLsbD, State.writeReg_f]
  case other => rw [State.readReg_commitFlags, State.readReg_writeReg_other _ _ _ _ hq]

/-- Settles O33: of the ALU's answer to ADD the result is the wrapping sum. -/
theorem addResult : Obligations.AddResult := by
  intro mask dst rhs s hwf
  have hsum : (s.aluAccOp .add (s.resolveByte rhs)).r = s.a + s.resolveByte rhs :=
    congrArg AluOut.r (alu_add ..)
  have h := exec_arith_result (ctl := .add) hwf
  rwa [hsum] at h

/-- Settles O34: of the ALU's answer to SUB the result is the wrapping difference, whatever the OPEN `AC_SUB_RULE`. -/
theorem subResult : Obligations.SubResult := by
  intro mask dst rhs s hwf
  have hdiff : (s.aluAccOp .sub (s.resolveByte rhs)).r = s.a - s.resolveByte rhs :=
    congrArg AluOut.r (alu_sub ..)
  have h := exec_arith_result (ctl := .sub) hwf
  rwa [hdiff] at h

end Sys2Proof.Machine
end

section
/-! SUPPORT. The statements about JUMP and JUMP_ON: the bytes that spell them, and what the two change as terms and over
those bytes. -/

namespace Sys2Proof

/-- The target stands low byte first behind the tag (45_jump.md R129). -/
theorem encode_jump_ofHiLo (hi lo : Byte) :
    encode (.jump (ofHiLo hi lo)) = some [0x40#8, lo, hi] := by
  rw [encode, loByte_ofHiLo, hiByte_ofHiLo]

/-- The flag's index fits the low bits that the tag leaves 0, so adding it sets just those (45_jump.md R130). -/
theorem Flag.jumpOn_tag (g : Flag) :
    0x50#8 + BitVec.ofNat 8 g.pos = 0x50#8 ||| BitVec.ofNat 8 g.pos := by
  cases g <;> rfl

theorem encode_jumpOn_ofHiLo (hi lo : Byte) (g : Flag) :
    encode (.jumpOn (ofHiLo hi lo) g) = some [0x50#8 + BitVec.ofNat 8 g.pos, lo, hi] := by
  rw [encode, loByte_ofHiLo, hiByte_ofHiLo, g.jumpOn_tag]

end Sys2Proof

namespace Sys2Proof.Machine

/-- A JUMP is well-formed whatever its target, and writes PC alone. -/
theorem exec_jump (target : Word) (s : State) :
    exec (.jump target) s = .next { s with pc := target } :=
  exec_of_wf (i := .jump target) rfl

/-- A step over a descriptor of three bytes, the length of both jumps (30_encoding.md R77). -/
theorem step_of_encode_three {i : Instr} {tag lo hi : Byte} {s : State} (hrun : s.run = .running)
    (hwf : i.wf s.profile = true) (henc : encode i = some [tag, lo, hi])
    (hbytes : s.bytesAt 3 = [tag, lo, hi]) : step s = exec i (s.advance 3) :=
  have hlen : 3 ≤ Config.maxInsnLen := by decide
  stepRefinesTermExecution s i _ hrun hwf henc hlen hbytes

/-- Settles O35: the three bytes spell the JUMP (O9), whose write of PC replaces that of the fetch. -/
theorem jumpResult : Obligations.JumpResult := by
  refine ⟨exec_jump, fun lo hi s hrun hbytes => ?_⟩
  calc step s
    _ = exec (.jump (ofHiLo hi lo)) (s.advance 3) :=
      step_of_encode_three hrun rfl (encode_jump_ofHiLo hi lo) hbytes
    _ = .next { s with pc := ofHiLo hi lo } := exec_jump _ _

/-- Settles O36: the three bytes spell the JUMP_ON (O9); the fetch leaves the committed flag as it is, and PC past the
bytes, where it stays if the flag is 0. -/
theorem jumpOnResult : Obligations.JumpOnResult := by
  refine ⟨fun target g s hg => exec_jumpOn hg target, fun g lo hi s hg hrun hbytes => ?_⟩
  calc step s
    _ = exec (.jumpOn (ofHiLo hi lo) g) (s.advance 3) :=
      step_of_encode_three hrun hg (encode_jumpOn_ofHiLo hi lo g) hbytes
    _ = .next { s with pc := if s.readF.getLsbD g.pos then ofHiLo hi lo else s.pc + 3#16 } :=
      exec_jumpOn (s := s.advance 3) hg _

end Sys2Proof.Machine
end

section
/-! SUPPORT. The statements about PUSH and POP: what each changes and leaves unchanged, and a run of pushes of literal
bytes with as many pops. -/

namespace Sys2Proof.Machine

/-! ## One PUSH and one POP -/

/-- Settles O37: a PUSH is one memory write below SP, which reads back by the invariant's canonical form. -/
theorem pushResult : Obligations.PushResult := by
  rintro src s ⟨hmem, -⟩ hwf
  exact ⟨_, exec_push hwf, fun b => State.readMem_writeMem hmem _ b _⟩

/-- No 8-bit code shares storage with SP (10_state.md R24). -/
theorem overlaps_sp_of_w8 {r : Reg} (h : r.width = .w8) : overlaps .sp r = false :=
  overlaps_sp fun he => by simp [he, Reg.width] at h

/-- Settles O38: a POP is two register writes, of the 8-bit destination and of SP, which share no storage. -/
theorem popResult : Obligations.PopResult := by
  intro dst s hdst
  refine ⟨_, exec_pop hdst, ?self, s.sp_writeReg_sp _, fun q hq hsp => ?other,
    s.writeReg_pc_of_w8 hdst _, ?flags, fun b => ?memory, ?run, ?profile⟩
  case self =>
    rw [State.readReg_writeReg_other _ _ _ _ (overlaps_sp_of_w8 hdst), State.readReg_writeReg_self,
      if_pos hdst, loByte_zextByte]
    rfl
  case other =>
    rw [State.readReg_writeReg_other _ _ _ _ (overlaps_sp hsp), State.readReg_writeReg_other _ _ _ _ hq]
  case flags => simp only [State.writeReg_f]
  case memory => simp only [State.readMem_writeReg]
  case run => simp only [State.writeReg_run]
  case profile => simp only [State.writeReg_profile]

/-! ## The bytes on the stack -/

/-- The stack holds the bytes of a list: the head at SP, the rest at the addresses above it, modulo 65,536. -/
def State.StackHolds (s : State) (bs : List Byte) : Prop :=
  ∀ k (h : k < bs.length), s.readMem (s.sp + BitVec.ofNat 16 k) = bs[k]

/-- A byte stored below SP, and SP lowered to it, is a new head of the stack; the address is none of those that hold
the bytes before it as long as the stack is no longer than memory. -/
theorem State.StackHolds.cons {s t : State} {bs : List Byte} {b : Byte} (h : s.StackHolds bs)
    (hs : Memory.wf s.mem = true) (hlen : bs.length < 65536) (hsp : t.sp = s.sp - 1#16)
    (hmem : t.mem = (s.writeMem (s.sp - 1#16) b).mem) : t.StackHolds (b :: bs) := by
  have hread (a : Word) : t.readMem a = if a = s.sp - 1#16 then b else s.readMem a := by
    rw [State.readMem, hmem, ← State.readMem, State.readMem_writeMem hs]
  intro k hk
  rw [hread, hsp]
  cases k with
  | zero => simp
  | succ k =>
    have hk' : k < bs.length := Nat.lt_of_succ_lt_succ hk
    have haddr : s.sp - 1#16 + BitVec.ofNat 16 (k + 1) = s.sp + BitVec.ofNat 16 k := by bv_omega
    have hne : s.sp + BitVec.ofNat 16 k ≠ s.sp - 1#16 := by bv_omega
    rw [haddr, if_neg hne, h k hk', List.getElem_cons_succ]

theorem State.StackHolds.head {s : State} {bs : List Byte} {b : Byte} (h : s.StackHolds (b :: bs)) :
    s.readMem s.sp = b := by
  simpa using h 0 (Nat.zero_lt_succ _)

/-- With SP one higher and memory as before the stack holds the list without its head. -/
theorem State.StackHolds.tail {s t : State} {bs : List Byte} {b : Byte} (h : s.StackHolds (b :: bs))
    (hsp : t.sp = s.sp + 1#16) (hmem : ∀ a : Word, t.readMem a = s.readMem a) : t.StackHolds bs := by
  intro k hk
  have haddr : s.sp + 1#16 + BitVec.ofNat 16 k = s.sp + BitVec.ofNat 16 (k + 1) := by bv_omega
  rw [hmem, hsp, haddr, h (k + 1) (Nat.succ_lt_succ hk), List.getElem_cons_succ]

/-! ## A run of pushes and a run of pops -/

theorem execAll_append {is js : List Instr} {s t : State} (h : execAll is s = some t) :
    execAll (is ++ js) s = execAll js t := by
  induction is generalizing s with
  | nil => cases h; rfl
  | cons i is ih =>
    cases hi : exec i s with
    | next u =>
      rw [execAll_cons _ hi] at h
      rw [List.cons_append, execAll_cons _ hi, ih h]
    | fault e => simp [execAll, hi] at h
    | refused r => simp [execAll, hi] at h

/-- A `PUSH` of a literal byte, as the head of a run. -/
theorem execAll_push_imm8_cons (b : Byte) (rest : List Instr) (s : State) :
    execAll (.push (.imm8 b) :: rest) s =
      execAll rest ((s.writeMem (s.sp - 1#16) b).writeReg .sp (s.sp - 1#16)) := by
  have hbyte : s.resolveByte (.imm8 b) = b := loByte_zextByte b
  rw [execAll_cons rest (exec_push rfl), hbyte]
  rfl

/-- Pushes of literal bytes leave them on the stack in reverse: the last one comes first there, so the induction adds
bytes at the end of the run. -/
theorem execAll_pushes {bs : List Byte} {s : State} (hs : Memory.wf s.mem = true)
    (hlen : bs.length ≤ 65536) :
    ∃ t, execAll (bs.map fun b => .push (.imm8 b)) s = some t ∧ Memory.wf t.mem = true ∧
      t.sp = s.sp - BitVec.ofNat 16 bs.length ∧ t.StackHolds bs.reverse := by
  induction bs using List.reverseRecOn with
  | nil => exact ⟨s, rfl, hs, by simp, fun k hk => absurd hk (Nat.not_lt_zero k)⟩
  | append_singleton bs b ih =>
    rw [List.length_append, List.length_singleton] at hlen ⊢
    obtain ⟨t, ht, hmem, hsp, hstack⟩ := ih (Nat.le_of_succ_le hlen)
    refine ⟨(t.writeMem (t.sp - 1#16) b).writeReg .sp (t.sp - 1#16), ?_, ?_, ?_, ?_⟩
    · rw [List.map_append, execAll_append ht]
      exact execAll_push_imm8_cons b [] t
    · rw [State.writeReg_mem]
      exact t.writeMem_wf hmem _ b
    · rw [State.sp_writeReg_sp, hsp]
      bv_omega
    · rw [List.reverse_append]
      exact hstack.cons hmem (by simpa using hlen) (State.sp_writeReg_sp _ _) (State.writeReg_mem ..)

/-- Pops give the bytes that the stack holds in its order, and SP past them. -/
theorem popMany_of_stackHolds {dst : Reg} (hdst : dst.width = .w8) {bs : List Byte} {s : State}
    (h : s.StackHolds bs) :
    ∃ u, popMany dst bs.length s = some (bs, u) ∧ u.sp = s.sp + BitVec.ofNat 16 bs.length := by
  induction bs generalizing s with
  | nil => exact ⟨s, rfl, by simp⟩
  | cons b bs ih =>
    obtain ⟨t, ht, hself, hsp, -, -, -, hmem, -⟩ := popResult dst s hdst
    obtain ⟨u, hu, husp⟩ := ih (h.tail hsp hmem)
    have hbyte : loByte (t.readReg dst) = b := by
      rw [hself, h.head]
      exact loByte_zextByte b
    refine ⟨u, ?_, ?_⟩
    · simp only [List.length_cons, popMany, ht, hu, Option.map_some, hbyte]
    · rw [husp, hsp, List.length_cons]
      bv_omega

/-- Settles O48: after the pushes the stack holds the bytes in reverse, and the pops read what it holds. -/
theorem pushesThenPopsReverse : Obligations.PushesThenPopsReverse := by
  rintro bs dst s ⟨hmem, -⟩ hdst hlen
  obtain ⟨t, ht, -, hsp, hstack⟩ := execAll_pushes hmem hlen
  obtain ⟨u, hu, husp⟩ := popMany_of_stackHolds hdst hstack
  rw [List.length_reverse] at hu husp
  exact ⟨t, u, ht, hsp, hu, by rw [husp, hsp, BitVec.sub_add_cancel]⟩

end Sys2Proof.Machine
end

section
/-! SUPPORT. The statements about COND, NOP and HALT: a guard as the choice between its inner instruction and nothing,
and the steps over a descriptor of one byte. -/

namespace Sys2Proof

theorem Instr.wf_cond {p : FlagProfile} {q : Pred} {inner : Instr} :
    (Instr.cond q inner).wf p = true ↔ wfPred p q = true ∧ inner.wf p = true := by
  rw [wf, Bool.and_eq_true]

end Sys2Proof

namespace Sys2Proof.Machine

/-! ## Guards -/

/-- A well-formed COND is its inner instruction where the predicate holds, and nothing where it does not (R133). -/
theorem exec_cond {q : Pred} {inner : Instr} {s : State}
    (h : (Instr.cond q inner).wf s.profile = true) :
    exec (.cond q inner) s = if s.holds q then exec inner s else .next s := by
  obtain ⟨-, hinner⟩ := Instr.wf_cond.mp h
  rw [exec_of_wf h, exec_of_wf hinner, writesOf]
  cases s.holds q with
  | true => rfl
  | false => rfl

/-- Settles O39: the inner instruction completes like every other, so both branches of the guard do. -/
theorem condResult : Obligations.CondResult := by
  intro q inner s hwf
  obtain ⟨t, ht⟩ := exec_next inner s
  refine ⟨⟨t, ht, ?_⟩, fun g hg => ?_, fun g hg => ?_⟩
  · rw [exec_cond hwf, ht, apply_ite Host.Outcome.next]
  · rw [hg]; rfl
  · rw [hg]; rfl

theorem exec_cond_cond {q r : Pred} {inner : Instr} {s : State}
    (h : (Instr.cond q (.cond r inner)).wf s.profile = true) :
    exec (.cond q (.cond r inner)) s =
      if s.holds q && s.holds r then exec inner s else .next s := by
  obtain ⟨-, hinner⟩ := Instr.wf_cond.mp h
  rw [exec_cond h, exec_cond hinner, ← ite_and]
  simp only [Bool.and_eq_true]

/-- Settles O40: the conjunction does not depend on the order of the guards, and neither does well-formedness. -/
theorem nestedGuardsAreConjunction : Obligations.NestedGuardsAreConjunction := by
  intro q r inner s hwf
  have hswap : (Instr.cond r (.cond q inner)).wf s.profile = true := by
    simpa only [Instr.wf_cond, and_left_comm] using hwf
  refine ⟨exec_cond_cond hwf, ?_⟩
  rw [exec_cond_cond hwf, exec_cond_cond hswap, Bool.and_comm]

/-! ## Descriptors of one byte -/

/-- A step over a descriptor of one byte (30_encoding.md R77). -/
theorem step_of_encode_one {i : Instr} {tag : Byte} {s : State} (hrun : s.run = .running)
    (hwf : i.wf s.profile = true) (henc : encode i = some [tag]) (hbyte : s.readMem s.pc = tag) :
    step s = exec i (s.advance 1) := by
  have hlen : 1 ≤ Config.maxInsnLen := by decide
  have hbytes : s.bytesAt 1 = [tag] := by
    rw [State.bytesAt_succ, State.fetchByte, hbyte]
    rfl
  exact stepRefinesTermExecution s i _ hrun hwf henc hlen hbytes

theorem exec_nop (s : State) : exec .nop s = .next s :=
  exec_of_wf (i := .nop) rfl

/-- HALT writes `RUN` alone. -/
theorem exec_halt (s : State) : exec .halt s = .next { s with run := .halted } :=
  exec_of_wf (i := .halt) rfl

theorem step_of_halted {s : State} (h : s.run = .halted) : step s = .fault .haltedNoStep :=
  (terminalStatesStopByName _ s).1 h

/-- Settles O41: the byte 0x00 spells NOP (O9), and PC moves by the fetch alone. -/
theorem nopResult : Obligations.NopResult := by
  refine ⟨exec_nop, fun s hrun hbyte => ?_⟩
  calc step s
    _ = exec .nop (s.advance 1) := step_of_encode_one hrun rfl rfl hbyte
    _ = .next { s with pc := s.pc + 1#16 } := exec_nop _

/-- Settles O42: the byte 0xF0 spells HALT (O9), and a `Halted` state has no step (O14). -/
theorem haltResult : Obligations.HaltResult := by
  refine ⟨exec_halt, fun s hrun hbyte => ⟨?_, ?_⟩⟩
  · calc step s
      _ = exec .halt (s.advance 1) := step_of_encode_one hrun rfl rfl hbyte
      _ = .next { s with pc := s.pc + 1#16, run := .halted } := exec_halt _
  · exact step_of_halted rfl

end Sys2Proof.Machine
end

section
/-! SUPPORT. Laws of what fails and of what the host does: what a fetch leaves where the decoder answers at `n` bytes,
that only an ill-formed term raises `Error`, and what the loader does to memory. -/

namespace Sys2Proof

/-- A COND around an ill-formed term is ill-formed, whatever its predicate (47_guard_nop_halt.md R133). -/
theorem Instr.wf_cond_of_not_wf {p : FlagProfile} (q : Pred) {inner : Instr} (h : inner.wf p = false) :
    (Instr.cond q inner).wf p = false := by
  rw [wf, h, Bool.and_false]

end Sys2Proof

namespace Sys2Proof.Machine

/-! ## A fetch that ends after `n` bytes -/

section
variable {dec : Decoder} {s : State} {n : Nat} (h0 : 1 ≤ n) (hn : n ≤ 16)
  (hmore : ∀ k, 1 ≤ k → k < n → dec (s.bytesAt k) = .needMore)
include h0 hn hmore

theorem fetchInsn_of_answer :
    (∀ i, dec (s.bytesAt n) = .instr i → fetchInsn dec s = ⟨s.advance n, s.bytesAt n, .ok i⟩) ∧
    (∀ e, dec (s.bytesAt n) = .invalid e →
      fetchInsn dec s = ⟨s.advance n, s.bytesAt n, .error e⟩) := by
  obtain ⟨m, rfl⟩ := Nat.exists_eq_add_of_le' h0
  exact fetchLoop_of_answer dec m Config.maxInsnLen [] s hn fun k hk0 hkm =>
    hmore k hk0 (Nat.lt_succ_of_le hkm)

/-- The two ways to a decode failure: the decoder's `Invalid`, and the length bound (30_encoding.md R81). -/
theorem fetchInsn_of_failure
    (hfail : (∃ e, dec (s.bytesAt n) = .invalid e) ∨ (n = 16 ∧ dec (s.bytesAt n) = .needMore)) :
    ∃ e, fetchInsn dec s = ⟨s.advance n, s.bytesAt n, .error e⟩ := by
  obtain ⟨e, hinvalid⟩ | ⟨rfl, hlast⟩ := hfail
  · exact ⟨e, (fetchInsn_of_answer h0 hn hmore).2 e hinvalid⟩
  · refine ⟨_, fetchLoop_of_needMore dec Config.maxInsnLen [] s fun k hk0 hk => ?_⟩
    obtain hlt | rfl : k < 16 ∨ k = 16 := Nat.lt_or_eq_of_le hk
    · exact hmore k hk0 hlt
    · exact hlast

end

/-! ## What raises `Error` -/

/-- The commit of an instruction's write set never raises `Error`: the one write of `RUN` is that of a `HALT`
(60_exceptions.md R139). -/
theorem commit_writesOf_run_ne_error (i : Instr) {s : State} (h : s.run ≠ .error) :
    (commit (writesOf i s) s).run ≠ .error := by
  rw [commit_run]
  cases hw : (writesOf i s).run with
  | none => exact h
  | some r =>
    obtain ⟨-, -, hhalt⟩ := writesOf_run hw
    rw [hhalt] at hw
    cases hw
    exact RunState.noConfusion

/-! ## The loader -/

/-- The loader changes memory alone. -/
theorem State.loadBytes_eq (s : State) (a : Word) (bs : List Byte) :
    s.loadBytes a bs = { s with mem := (s.loadBytes a bs).mem } := by
  induction bs generalizing s a with
  | nil => rfl
  | cons b rest ih => exact ih (s.writeMem a b) (a + 1#16)

/-- Address `k + 1` of a load is address `k` of the load of its tail. -/
theorem add_one_add_ofNat (a : Word) (k : Nat) :
    a + 1#16 + BitVec.ofNat 16 k = a + BitVec.ofNat 16 (k + 1) := by
  bv_omega

theorem State.readMem_loadBytes_other {s : State} (hs : Memory.wf s.mem = true) {a b : Word}
    {bs : List Byte} (hb : ∀ k, k < bs.length → b ≠ a + BitVec.ofNat 16 k) :
    (s.loadBytes a bs).readMem b = s.readMem b := by
  induction bs generalizing s a with
  | nil => rfl
  | cons x rest ih =>
    have hne : b ≠ a := by simpa using hb 0 (Nat.zero_lt_succ _)
    have hrest (k : Nat) (hk : k < rest.length) : b ≠ a + 1#16 + BitVec.ofNat 16 k := by
      rw [add_one_add_ofNat]
      exact hb (k + 1) (Nat.succ_lt_succ hk)
    rw [State.loadBytes, ih (State.writeMem_wf hs a x) hrest, State.readMem_writeMem hs, if_neg hne]

/-- A load no longer than memory does not come back to an address it has written, so each byte stays where it was
stored. -/
theorem State.readMem_loadBytes_self {s : State} (hs : Memory.wf s.mem = true) {a : Word}
    {bs : List Byte} (hlen : bs.length ≤ 65536) {k : Nat} (hk : k < bs.length) :
    (s.loadBytes a bs).readMem (a + BitVec.ofNat 16 k) = bs[k] := by
  induction bs generalizing s a k with
  | nil => cases hk
  | cons x rest ih =>
    have hs' : Memory.wf (s.writeMem a x).mem = true := State.writeMem_wf hs a x
    rw [List.length_cons] at hlen
    cases k with
    | zero =>
      have hfresh (j : Nat) (hj : j < rest.length) : a ≠ a + 1#16 + BitVec.ofNat 16 j := by
        bv_omega
      rw [BitVec.add_zero, State.loadBytes, State.readMem_loadBytes_other hs' hfresh,
        State.readMem_writeMem hs, if_pos rfl, List.getElem_cons_zero]
    | succ k =>
      rw [← add_one_add_ofNat]
      exact ih hs' (Nat.le_of_succ_le hlen) (Nat.lt_of_succ_lt_succ hk)

end Sys2Proof.Machine
end

section
/-! SUPPORT. The statements about failing cycles, about reset and the loader, and the sample descriptors. -/

namespace Sys2Proof.Machine

/-- Settles O15: of the two ends of a cycle, the commit of a well-formed term never raises `Error`, so this one is the
error entry. -/
theorem errorIsPrecise : Obligations.ErrorIsPrecise := by
  intro dec s t hcycle herror
  obtain ⟨hrun, n, h0, hn, hbytes, rfl | ⟨i, -, -, rfl⟩⟩ := cycleWith_cases hcycle
  · exact ⟨n, h0, hn, hbytes, rfl⟩
  · have hne : (s.advance n).run ≠ .error := by simp [hrun]
    exact absurd herror (commit_writesOf_run_ne_error i hne)

/-- Settles O10: the fetch loop ends without a term, and the cycle goes on to the error entry. -/
theorem decodeFailureEndsInError : Obligations.DecodeFailureEndsInError := by
  intro dec s n hrun h0 hn hmore hfail
  obtain ⟨e, hfetch⟩ := fetchInsn_of_failure h0 hn hmore hfail
  constructor
  · simp only [cycleWith, hrun, fetchExec, hfetch]
    rfl
  · simp only [cycleCause, hrun, hfetch]

/-- Settles O11: the cycle executes the term that the decoder answers, which is ill-formed. -/
theorem preconditionViolationEndsInError : Obligations.PreconditionViolationEndsInError := by
  intro dec s n i hrun h0 hn hmore hinstr hwf
  constructor
  · rw [cycleWith_of_instr hrun h0 hn hmore hinstr]
    exact exec_of_not_wf (s := s.advance n) hwf
  · have hfetch := (fetchInsn_of_answer h0 hn hmore).1 i hinstr
    simp [cycleCause, hrun, hfetch, hwf]

/-- Settles O12: an ill-formed term is not performed, and the commit of a well-formed one never raises `Error`. -/
theorem exactlyIllFormedTermsFail : Obligations.ExactlyIllFormedTermsFail := by
  intro i s
  refine ⟨exec_of_not_wf, fun hwf hrun => ⟨_, exec_of_wf hwf, ?_⟩,
    fun q hwf => exec_of_not_wf (Instr.wf_cond_of_not_wf q hwf)⟩
  have hne : s.run ≠ .error := by simp [hrun]
  exact commit_writesOf_run_ne_error i hne

/-- Settles O21: the loader is a sequence of stores to distinct addresses. -/
theorem loaderStoresItsBytes : Obligations.LoaderStoresItsBytes := by
  rintro s a bs ⟨hmem, -⟩ hlen
  exact ⟨_, s.loadBytes_eq a bs, fun k hk => State.readMem_loadBytes_self hmem hlen hk,
    fun b hb => State.readMem_loadBytes_other hmem hb⟩

/-- Settles O20: reset masks the drawn `F` with `FMASK`, so masking it again changes nothing. -/
theorem resetGivesDrawsAndKeepsMemory : Obligations.ResetGivesDrawsAndKeepsMemory := by
  intro s d
  refine ⟨rfl, rfl, ?outside, ?inside, fun a => rfl, rfl, rfl, rfl, rfl, rfl⟩
  case outside =>
    rw [State.resetWith_f, BitVec.and_assoc, BitVec.and_not_self]
    exact BitVec.and_zero
  case inside =>
    rw [State.readF, State.resetWith_f, State.resetWith_profile, BitVec.and_assoc, BitVec.and_self]

/-- Settles O7: the decoder evaluates on each of the four byte lists. -/
theorem sampleDescriptors : Obligations.SampleDescriptors := by
  unfold Obligations.SampleDescriptors
  decide

end Sys2Proof.Machine
end
